-- ==== Sys2Proof/Word.lean ====
section
/-! DEFINITION. The word types of the machine (spec/00_scope.md R5, R7): every value is unsigned, bit 0 is the
least significant bit. -/

namespace Sys2Proof

/-- One 8-bit register or memory byte (`XLEN`, R5). -/
abbrev Byte := BitVec 8

/-- A 16-bit value: an instruction word, the pc, the index register, a stack entry (R5). -/
abbrev Word := BitVec 16

/-- A 4-bit field: a register index, a key index, the sprite height (R7, R72). -/
abbrev Nibble := BitVec 4

/-- A 12-bit address literal `NNN` (R72). -/
abbrev Addr12 := BitVec 12

end Sys2Proof
end

