-- ==== Sys2Proof/Machine/Flags.lean ====
section
/-! DEFINITION. The values written to VF by the arithmetic and shift instructions (spec/10_state.md R22), each from the
operands before the instruction. The flag of `draw` is computed by `plotSprite`. -/

namespace Sys2Proof.Machine

/-- A flag as the byte written to VF: 1 or 0. -/
def flagByte (c : Bool) : Byte := if c then 1 else 0

/-- Carry of `add.reg`: the exact sum exceeds 255 (R147). -/
def carryFlag (a b : Byte) : Bool := decide (a.toNat + b.toNat > 255)

/-- No borrow of `sub`: `a >= b` (R148). -/
def noBorrowFlag (a b : Byte) : Bool := decide (b.toNat ≤ a.toNat)

/-- The flag of `revsub`: `b > a`, strictly, unlike `sub` (R150). -/
def revsubFlag (a b : Byte) : Bool := decide (a.toNat < b.toNat)

/-- Bit 0, shifted out by `rshift` (R149). -/
def lsbFlag (a : Byte) : Bool := a.getLsbD 0

/-- Bit 7, shifted out by `lshift` (R151). -/
def msbFlag (a : Byte) : Bool := a.getLsbD 7

end Sys2Proof.Machine
end

