-- ==== Sys2Proof/Syntax.lean ====
section
/-! DEFINITION. The 36 instructions of spec/30_encoding.md R78 (rows of spec/opcode_table.json), one constructor each,
with the fields of R72. The ignored `Y` nibble of `rshift` and `lshift` is no operand (R75, R76). -/

namespace Sys2Proof

/-- An instruction. `x`, `y` are register indices (`X`, `Y`), `n` a sprite height (`N`), `nn` an 8-bit literal
(`NN`), `nnn` a 12-bit address (`NNN`). -/
inductive Instr where
  | halt
  | clearScreen
  | ret
  | jump (nnn : Addr12)
  | call (nnn : Addr12)
  | skipIfEqImm (x : Nibble) (nn : Byte)
  | skipIfNeImm (x : Nibble) (nn : Byte)
  | skipIfEqReg (x y : Nibble)
  | togglePixel (x y : Nibble)
  | setImm (x : Nibble) (nn : Byte)
  | addImm (x : Nibble) (nn : Byte)
  | setReg (x y : Nibble)
  | bitOr (x y : Nibble)
  | bitAnd (x y : Nibble)
  | bitXor (x y : Nibble)
  | addReg (x y : Nibble)
  | sub (x y : Nibble)
  | rshift (x : Nibble)
  | revsub (x y : Nibble)
  | lshift (x : Nibble)
  | skipIfNeReg (x y : Nibble)
  | setIndex (nnn : Addr12)
  | jumpR0 (nnn : Addr12)
  | random (x : Nibble) (nn : Byte)
  | draw (x y n : Nibble)
  | skipIfKey (x : Nibble)
  | skipIfNotKey (x : Nibble)
  | getTimer (x : Nibble)
  | awaitKey (x : Nibble)
  | setTimer (x : Nibble)
  | setSound (x : Nibble)
  | addIndex (x : Nibble)
  | setSprite (x : Nibble)
  | bcd (x : Nibble)
  | dump (x : Nibble)
  | fill (x : Nibble)
  deriving DecidableEq, Repr

end Sys2Proof
end

