-- ==== Sys2Proof/WellFormed.lean ====
section
/-! DEFINITION. The range check of each field (spec/30_encoding.md R72, the literal ranges of R90). The operand types
of Instr already hold the ranges; the check states them on the operands' numbers. -/

namespace Sys2Proof

/-- The fields of R72. -/
inductive FieldKind where
  | regX
  | regY
  | height
  | literal8
  | address12
  deriving DecidableEq, Repr

/-- One more than the greatest value of a field (the range column of R72). -/
def FieldKind.limit : FieldKind → Nat
  | .regX => 16
  | .regY => 16
  | .height => 16
  | .literal8 => 256
  | .address12 => 4096

/-- An operand as a number in a field. -/
structure Operand where
  kind  : FieldKind
  value : Nat
  deriving DecidableEq, Repr

/-- The number fits its field (R72). -/
def Operand.inRange (o : Operand) : Bool := decide (o.value < o.kind.limit)

/-- The operands of an instruction, in the order the document writes them. -/
def Instr.operands : Instr → List Operand
  | .halt => []
  | .clearScreen => []
  | .ret => []
  | .jump nnn => [⟨.address12, nnn.toNat⟩]
  | .call nnn => [⟨.address12, nnn.toNat⟩]
  | .skipIfEqImm x nn => [⟨.regX, x.toNat⟩, ⟨.literal8, nn.toNat⟩]
  | .skipIfNeImm x nn => [⟨.regX, x.toNat⟩, ⟨.literal8, nn.toNat⟩]
  | .skipIfEqReg x y => [⟨.regX, x.toNat⟩, ⟨.regY, y.toNat⟩]
  | .togglePixel x y => [⟨.regX, x.toNat⟩, ⟨.regY, y.toNat⟩]
  | .setImm x nn => [⟨.regX, x.toNat⟩, ⟨.literal8, nn.toNat⟩]
  | .addImm x nn => [⟨.regX, x.toNat⟩, ⟨.literal8, nn.toNat⟩]
  | .setReg x y => [⟨.regX, x.toNat⟩, ⟨.regY, y.toNat⟩]
  | .bitOr x y => [⟨.regX, x.toNat⟩, ⟨.regY, y.toNat⟩]
  | .bitAnd x y => [⟨.regX, x.toNat⟩, ⟨.regY, y.toNat⟩]
  | .bitXor x y => [⟨.regX, x.toNat⟩, ⟨.regY, y.toNat⟩]
  | .addReg x y => [⟨.regX, x.toNat⟩, ⟨.regY, y.toNat⟩]
  | .sub x y => [⟨.regX, x.toNat⟩, ⟨.regY, y.toNat⟩]
  | .rshift x => [⟨.regX, x.toNat⟩]
  | .revsub x y => [⟨.regX, x.toNat⟩, ⟨.regY, y.toNat⟩]
  | .lshift x => [⟨.regX, x.toNat⟩]
  | .skipIfNeReg x y => [⟨.regX, x.toNat⟩, ⟨.regY, y.toNat⟩]
  | .setIndex nnn => [⟨.address12, nnn.toNat⟩]
  | .jumpR0 nnn => [⟨.address12, nnn.toNat⟩]
  | .random x nn => [⟨.regX, x.toNat⟩, ⟨.literal8, nn.toNat⟩]
  | .draw x y n => [⟨.regX, x.toNat⟩, ⟨.regY, y.toNat⟩, ⟨.height, n.toNat⟩]
  | .skipIfKey x => [⟨.regX, x.toNat⟩]
  | .skipIfNotKey x => [⟨.regX, x.toNat⟩]
  | .getTimer x => [⟨.regX, x.toNat⟩]
  | .awaitKey x => [⟨.regX, x.toNat⟩]
  | .setTimer x => [⟨.regX, x.toNat⟩]
  | .setSound x => [⟨.regX, x.toNat⟩]
  | .addIndex x => [⟨.regX, x.toNat⟩]
  | .setSprite x => [⟨.regX, x.toNat⟩]
  | .bcd x => [⟨.regX, x.toNat⟩]
  | .dump x => [⟨.regX, x.toNat⟩]
  | .fill x => [⟨.regX, x.toNat⟩]

/-- Every operand fits its field. The operand types make this true of every instruction (log entry 32). -/
def Instr.wellFormed (i : Instr) : Bool := i.operands.all Operand.inRange

end Sys2Proof
end

