-- ==== Sys2Proof/Decode.lean ====
section
/-! DEFINITION. The decoder and the encoder of spec/30_encoding.md: fields (R72), decode (R75, R76), the opcode map
(R78), the words emitted (R92), the byte order (spec/20_memory.md R54). -/

namespace Sys2Proof

/-- Nibble 3 of a word: bits 15:12 (R7). -/
def opNibble (w : Word) : Nibble := w.extractLsb' 12 4

/-- Field `X`: bits 11:8 (R72). -/
def fieldX (w : Word) : Nibble := w.extractLsb' 8 4

/-- Field `Y`: bits 7:4 (R72). -/
def fieldY (w : Word) : Nibble := w.extractLsb' 4 4

/-- Field `N`, also the function nibble of format XY: bits 3:0 (R72). -/
def fieldN (w : Word) : Nibble := w.extractLsb' 0 4

/-- Field `NN`, also the function byte of format XS: bits 7:0 (R72). -/
def fieldNN (w : Word) : Byte := w.extractLsb' 0 8

/-- Field `NNN`: bits 11:0 (R72). -/
def fieldNNN (w : Word) : Addr12 := w.extractLsb' 0 12

/-- Leading nibble 0: three words, all else illegal (R75, R76). -/
def decodeZ (w : Word) : Option Instr :=
  if w = 0x0000 then some .halt
  else if w = 0x00E0 then some .clearScreen
  else if w = 0x00EE then some .ret
  else none

/-- Leading nibble 5 (R75). -/
def decode5 (x y n : Nibble) : Option Instr :=
  if n = 0x0 then some (.skipIfEqReg x y)
  else if n = 0x1 then some (.togglePixel x y)
  else none

/-- Leading nibble 8: the function nibble selects; `Y` is ignored by the shifts (R75, R76). -/
def decode8 (x y n : Nibble) : Option Instr :=
  if n = 0x0 then some (.setReg x y)
  else if n = 0x1 then some (.bitOr x y)
  else if n = 0x2 then some (.bitAnd x y)
  else if n = 0x3 then some (.bitXor x y)
  else if n = 0x4 then some (.addReg x y)
  else if n = 0x5 then some (.sub x y)
  else if n = 0x6 then some (.rshift x)
  else if n = 0x7 then some (.revsub x y)
  else if n = 0xE then some (.lshift x)
  else none

/-- Leading nibble 9 (R75). -/
def decode9 (x y n : Nibble) : Option Instr :=
  if n = 0x0 then some (.skipIfNeReg x y) else none

/-- Leading nibble 0xE (R75). -/
def decodeE (x : Nibble) (lo : Byte) : Option Instr :=
  if lo = 0x9E then some (.skipIfKey x)
  else if lo = 0xA1 then some (.skipIfNotKey x)
  else none

/-- Leading nibble 0xF (R75). -/
def decodeF (x : Nibble) (lo : Byte) : Option Instr :=
  if lo = 0x07 then some (.getTimer x)
  else if lo = 0x0A then some (.awaitKey x)
  else if lo = 0x15 then some (.setTimer x)
  else if lo = 0x18 then some (.setSound x)
  else if lo = 0x1E then some (.addIndex x)
  else if lo = 0x29 then some (.setSprite x)
  else if lo = 0x33 then some (.bcd x)
  else if lo = 0x55 then some (.dump x)
  else if lo = 0x65 then some (.fill x)
  else none

/-- `decode(w)` (R75): the instruction a word selects, `none` for `Invalid`. A word selects an instruction only when
every fixed nibble matches (R76; the strictness is the spec's decision D14, log entry 20). -/
def decodeWord (w : Word) : Option Instr :=
  match (opNibble w).toNat with
  | 0x0 => decodeZ w
  | 0x1 => some (.jump (fieldNNN w))
  | 0x2 => some (.call (fieldNNN w))
  | 0x3 => some (.skipIfEqImm (fieldX w) (fieldNN w))
  | 0x4 => some (.skipIfNeImm (fieldX w) (fieldNN w))
  | 0x5 => decode5 (fieldX w) (fieldY w) (fieldN w)
  | 0x6 => some (.setImm (fieldX w) (fieldNN w))
  | 0x7 => some (.addImm (fieldX w) (fieldNN w))
  | 0x8 => decode8 (fieldX w) (fieldY w) (fieldN w)
  | 0x9 => decode9 (fieldX w) (fieldY w) (fieldN w)
  | 0xA => some (.setIndex (fieldNNN w))
  | 0xB => some (.jumpR0 (fieldNNN w))
  | 0xC => some (.random (fieldX w) (fieldNN w))
  | 0xD => some (.draw (fieldX w) (fieldY w) (fieldN w))
  | 0xE => decodeE (fieldX w) (fieldNN w)
  | 0xF => decodeF (fieldX w) (fieldNN w)
  | _ => none   -- a 4-bit field has no other value

/-- Why bytes do not decode. -/
inductive DecodeError where
  /-- Fewer than the two bytes every instruction has (R70). -/
  | truncated
  /-- No decode rule matches the word (R76, R79). -/
  | invalidOpcode (w : Word)
  deriving DecidableEq, Repr

/-- The word of two consecutive bytes, the first in bits 15:8 (R54, R70). -/
def wordOfBytes (hi lo : Byte) : Word := hi.setWidth 16 <<< 8 ||| lo.setWidth 16

/-- The first instruction of a sequence of bytes, and the bytes after it (R70: always two bytes). -/
def decodeBytes : List Byte → Except DecodeError (Instr × List Byte)
  | hi :: lo :: rest =>
    match decodeWord (wordOfBytes hi lo) with
    | some i => .ok (i, rest)
    | none => .error (.invalidOpcode (wordOfBytes hi lo))
  | _ => .error .truncated

/-- Format Z: all bits fixed (R71). -/
def layoutZ (w : Word) : Word := w

/-- Format A: opcode, NNN (R71). -/
def layoutA (op : Nibble) (nnn : Addr12) : Word := op.setWidth 16 <<< 12 ||| nnn.setWidth 16

/-- Format XI: opcode, X, NN (R71). -/
def layoutXI (op x : Nibble) (nn : Byte) : Word :=
  op.setWidth 16 <<< 12 ||| x.setWidth 16 <<< 8 ||| nn.setWidth 16

/-- Formats XY and XYN: opcode, X, Y, function or N (R71). -/
def layoutXY (op x y n : Nibble) : Word :=
  op.setWidth 16 <<< 12 ||| x.setWidth 16 <<< 8 ||| y.setWidth 16 <<< 4 ||| n.setWidth 16

/-- Format XS: opcode, X, function byte (R71). -/
def layoutXS (op x : Nibble) (lo : Byte) : Word :=
  op.setWidth 16 <<< 12 ||| x.setWidth 16 <<< 8 ||| lo.setWidth 16

/-- The word of an instruction (R92). The shifts emit `Y = 0` (the spec's decision D27, log entry 31). -/
def encode : Instr → Word
  | .halt => layoutZ 0x0000
  | .clearScreen => layoutZ 0x00E0
  | .ret => layoutZ 0x00EE
  | .jump nnn => layoutA 0x1 nnn
  | .call nnn => layoutA 0x2 nnn
  | .skipIfEqImm x nn => layoutXI 0x3 x nn
  | .skipIfNeImm x nn => layoutXI 0x4 x nn
  | .skipIfEqReg x y => layoutXY 0x5 x y 0x0
  | .togglePixel x y => layoutXY 0x5 x y 0x1
  | .setImm x nn => layoutXI 0x6 x nn
  | .addImm x nn => layoutXI 0x7 x nn
  | .setReg x y => layoutXY 0x8 x y 0x0
  | .bitOr x y => layoutXY 0x8 x y 0x1
  | .bitAnd x y => layoutXY 0x8 x y 0x2
  | .bitXor x y => layoutXY 0x8 x y 0x3
  | .addReg x y => layoutXY 0x8 x y 0x4
  | .sub x y => layoutXY 0x8 x y 0x5
  | .rshift x => layoutXY 0x8 x 0 0x6
  | .revsub x y => layoutXY 0x8 x y 0x7
  | .lshift x => layoutXY 0x8 x 0 0xE
  | .skipIfNeReg x y => layoutXY 0x9 x y 0x0
  | .setIndex nnn => layoutA 0xA nnn
  | .jumpR0 nnn => layoutA 0xB nnn
  | .random x nn => layoutXI 0xC x nn
  | .draw x y n => layoutXY 0xD x y n
  | .skipIfKey x => layoutXS 0xE x 0x9E
  | .skipIfNotKey x => layoutXS 0xE x 0xA1
  | .getTimer x => layoutXS 0xF x 0x07
  | .awaitKey x => layoutXS 0xF x 0x0A
  | .setTimer x => layoutXS 0xF x 0x15
  | .setSound x => layoutXS 0xF x 0x18
  | .addIndex x => layoutXS 0xF x 0x1E
  | .setSprite x => layoutXS 0xF x 0x29
  | .bcd x => layoutXS 0xF x 0x33
  | .dump x => layoutXS 0xF x 0x55
  | .fill x => layoutXS 0xF x 0x65

/-- The two bytes of a word, `w[15:8]` first (R54, R90). -/
def bytesOfWord (w : Word) : List Byte := [w.extractLsb' 8 8, w.extractLsb' 0 8]

/-- The two bytes the encoder emits for an instruction (R90). -/
def encodeBytes (i : Instr) : List Byte := bytesOfWord (encode i)

/-- The mask column of the opcode map (R78). -/
def Instr.mask : Instr → Word
  | .halt => 0xFFFF
  | .clearScreen => 0xFFFF
  | .ret => 0xFFFF
  | .jump _ => 0xF000
  | .call _ => 0xF000
  | .skipIfEqImm _ _ => 0xF000
  | .skipIfNeImm _ _ => 0xF000
  | .skipIfEqReg _ _ => 0xF00F
  | .togglePixel _ _ => 0xF00F
  | .setImm _ _ => 0xF000
  | .addImm _ _ => 0xF000
  | .setReg _ _ => 0xF00F
  | .bitOr _ _ => 0xF00F
  | .bitAnd _ _ => 0xF00F
  | .bitXor _ _ => 0xF00F
  | .addReg _ _ => 0xF00F
  | .sub _ _ => 0xF00F
  | .rshift _ => 0xF00F
  | .revsub _ _ => 0xF00F
  | .lshift _ => 0xF00F
  | .skipIfNeReg _ _ => 0xF00F
  | .setIndex _ => 0xF000
  | .jumpR0 _ => 0xF000
  | .random _ _ => 0xF000
  | .draw _ _ _ => 0xF000
  | .skipIfKey _ => 0xF0FF
  | .skipIfNotKey _ => 0xF0FF
  | .getTimer _ => 0xF0FF
  | .awaitKey _ => 0xF0FF
  | .setTimer _ => 0xF0FF
  | .setSound _ => 0xF0FF
  | .addIndex _ => 0xF0FF
  | .setSprite _ => 0xF0FF
  | .bcd _ => 0xF0FF
  | .dump _ => 0xF0FF
  | .fill _ => 0xF0FF

/-- The match column of the opcode map (R78). -/
def Instr.pattern : Instr → Word
  | .halt => 0x0000
  | .clearScreen => 0x00E0
  | .ret => 0x00EE
  | .jump _ => 0x1000
  | .call _ => 0x2000
  | .skipIfEqImm _ _ => 0x3000
  | .skipIfNeImm _ _ => 0x4000
  | .skipIfEqReg _ _ => 0x5000
  | .togglePixel _ _ => 0x5001
  | .setImm _ _ => 0x6000
  | .addImm _ _ => 0x7000
  | .setReg _ _ => 0x8000
  | .bitOr _ _ => 0x8001
  | .bitAnd _ _ => 0x8002
  | .bitXor _ _ => 0x8003
  | .addReg _ _ => 0x8004
  | .sub _ _ => 0x8005
  | .rshift _ => 0x8006
  | .revsub _ _ => 0x8007
  | .lshift _ => 0x800E
  | .skipIfNeReg _ _ => 0x9000
  | .setIndex _ => 0xA000
  | .jumpR0 _ => 0xB000
  | .random _ _ => 0xC000
  | .draw _ _ _ => 0xD000
  | .skipIfKey _ => 0xE09E
  | .skipIfNotKey _ => 0xE0A1
  | .getTimer _ => 0xF007
  | .awaitKey _ => 0xF00A
  | .setTimer _ => 0xF015
  | .setSound _ => 0xF018
  | .addIndex _ => 0xF01E
  | .setSprite _ => 0xF029
  | .bcd _ => 0xF033
  | .dump _ => 0xF055
  | .fill _ => 0xF065

/-- The id column of the opcode map (R77, R78). -/
def Instr.mnemonic : Instr → String
  | .halt => "halt"
  | .clearScreen => "clear-screen"
  | .ret => "return"
  | .jump _ => "jump"
  | .call _ => "call"
  | .skipIfEqImm _ _ => "skip-if-eq.imm"
  | .skipIfNeImm _ _ => "skip-if-ne.imm"
  | .skipIfEqReg _ _ => "skip-if-eq.reg"
  | .togglePixel _ _ => "toggle-pixel"
  | .setImm _ _ => "set.imm"
  | .addImm _ _ => "add.imm"
  | .setReg _ _ => "set.reg"
  | .bitOr _ _ => "or"
  | .bitAnd _ _ => "and"
  | .bitXor _ _ => "xor"
  | .addReg _ _ => "add.reg"
  | .sub _ _ => "sub"
  | .rshift _ => "rshift"
  | .revsub _ _ => "revsub"
  | .lshift _ => "lshift"
  | .skipIfNeReg _ _ => "skip-if-ne.reg"
  | .setIndex _ => "set-index"
  | .jumpR0 _ => "jump.r0"
  | .random _ _ => "random"
  | .draw _ _ _ => "draw"
  | .skipIfKey _ => "skip-if-key"
  | .skipIfNotKey _ => "skip-if-not-key"
  | .getTimer _ => "get-timer"
  | .awaitKey _ => "await-key"
  | .setTimer _ => "set-timer"
  | .setSound _ => "set-sound"
  | .addIndex _ => "add-index"
  | .setSprite _ => "set-sprite"
  | .bcd _ => "bcd"
  | .dump _ => "dump"
  | .fill _ => "fill"

/-- The instruction the decoder reads from a word whose bits are `w` (bit 0 the least significant bit of the word),
its bits above `nbits` being 0, laid out as two bytes in the machine's order. -/
def decodeTableWord (nbits w : Nat) : Option Instr :=
  match decodeBytes (bytesOfWord (BitVec.ofNat 16 (w % 2 ^ nbits))) with
  | .ok (i, _) => some i
  | .error _ => none

end Sys2Proof
end

