-- ==== Sys2Proof/Config.lean ====
section
/-! DEFINITION. The types of the open parameters (spec/00_scope.md R6) and the free value `rand_byte`; the fixed
sizes of R5 stand as numbers where they are used. The parameters' default values are in Sys2Proof/Machine/Defaults.lean. -/

namespace Sys2Proof

/-- `FILL_MODE` (R6, R165): what `fill` does. -/
inductive FillMode where
  | load
  | store
  deriving DecidableEq, Repr

/-- `AWAIT_KEY_MODE` (R6, R193): whether `await-key` waits. -/
inductive AwaitKeyMode where
  | block
  | stub
  deriving DecidableEq, Repr

/-- `BCD_MODE` (R6, R166): whether `bcd` stores digits. -/
inductive BcdMode where
  | full
  | stub
  deriving DecidableEq, Repr

/-- `LINK_OFFSET` (R6, R123): the spec admits 0 and 2. -/
inductive LinkOffset where
  | zero
  | two
  deriving DecidableEq, Repr

/-- The parameters of R6 that instructions read. DESIGN CHOICE (log entry 1), safe: they are carried in a field of
State that no operation writes, so a statement about every state holds for every value of them. -/
structure Params where
  fillMode     : FillMode
  awaitKeyMode : AwaitKeyMode
  bcdMode      : BcdMode
  linkOffset   : LinkOffset
  deriving DecidableEq, Repr

/-- The sprite table parameter `FONT` (R6, R35): 80 bytes, read by reset alone (R38). -/
abbrev Font := Vector Byte 80

/-- `rand_byte()` (R6, R8, D21): the byte of the n-th draw. A FREE VALUE (log entry 4), safe: it has no body, so
nothing can be proved of any draw. -/
opaque Config.randByte : Nat → Byte

end Sys2Proof
end

