-- ==== Sys2Proof/Machine/Defaults.lean ====
section
/-! DEFINITION. The default values of the spec's open parameters (spec/00_scope.md R6): the modes that instructions
read, and the sprite table FONT (spec/10_state.md R35). -/

namespace Sys2Proof.Machine

/-- The defaults of R6: the ones every rule of the spec assumes (log entry 2). -/
def defaultParams : Params where
  fillMode := .load
  awaitKeyMode := .block
  bcdMode := .full
  linkOffset := .two

/-- The default bytes of `FONT`, digit by digit (R35). PRESUMED (log entry 3), unsafe: the spec marks them as taken
from general knowledge of this family of machines. -/
def defaultFontBytes : List Byte :=
  [0xF0, 0x90, 0x90, 0x90, 0xF0] ++ [0x20, 0x60, 0x20, 0x20, 0x70]
  ++ [0xF0, 0x10, 0xF0, 0x80, 0xF0] ++ [0xF0, 0x10, 0xF0, 0x10, 0xF0]
  ++ [0x90, 0x90, 0xF0, 0x10, 0x10] ++ [0xF0, 0x80, 0xF0, 0x10, 0xF0]
  ++ [0xF0, 0x80, 0xF0, 0x90, 0xF0] ++ [0xF0, 0x10, 0x20, 0x40, 0x40]
  ++ [0xF0, 0x90, 0xF0, 0x90, 0xF0] ++ [0xF0, 0x90, 0xF0, 0x10, 0xF0]
  ++ [0xF0, 0x90, 0xF0, 0x90, 0x90] ++ [0xE0, 0x90, 0xE0, 0x90, 0xE0]
  ++ [0xF0, 0x80, 0x80, 0x80, 0xF0] ++ [0xE0, 0x90, 0x90, 0x90, 0xE0]
  ++ [0xF0, 0x80, 0xF0, 0x80, 0xF0] ++ [0xF0, 0x80, 0xF0, 0x80, 0x80]

/-- The default `FONT` as the parameter's type. -/
def defaultFont : Font := ⟨defaultFontBytes.toArray, by decide⟩

/-- What an address reads as while memory lists nothing at it: the reset contents with the default `FONT` (R36).
Bytes 0 to 79 are PRESUMED (log entry 3); the zeros from 80 up are the spec's decision D2, DESIGN CHOICE (log
entry 7), unsafe. -/
def unlisted (a : Nat) : Byte := defaultFontBytes.getD a 0

end Sys2Proof.Machine
end

