-- ==== Sys2Proof/Machine/State.lean ====
section
/-! DEFINITION. The Machine State of spec/10_state.md R20 as plain data, the runtime errors of spec/60_exceptions.md
R200, the reasons a step or a load can stop, and the state after reset (R36). -/

namespace Sys2Proof.Machine

/-- `run` (R31). -/
inductive RunState where
  | running
  | halted
  deriving DecidableEq, Repr

/-- The four runtime errors (R200). `err = None` is `none` of `Option RunError` (R32). -/
inductive RunError where
  | outOfBoundsAccess
  | stackUnderflow
  | stackOverflow
  | invalidOpcode
  deriving DecidableEq, Repr

/-- The faults of a step: there are none. Each of the spec's runtime errors has an entry the spec describes (R204)
and is taken as a next state (log entry 8). Nobody raises a fault; safe. -/
inductive Fault where
  deriving DecidableEq, Repr

/-- Why an operation is refused. -/
inductive Refusal where
  /-- Raised by an arm of exec whose instruction has no meaning yet; no arm does. Safe. -/
  | notModelled (mnemonic : String)
  /-- Raised by `loadImage` for an image of more than 3584 bytes (R232, the spec's decision D24). Safe: no run
  starts. -/
  | imageTooLong
  deriving DecidableEq, Repr

/-- `mem` (R30) as a list of (address, byte) pairs in canonical form: addresses strictly rising and below 4096, no
byte equal to `unlisted`. -/
abbrev Memory := List Host.Cell

/-- `disp[row][col]` (R28): 32 rows of 64 pixels. -/
abbrev Display := Vector (Vector Bool 64) 32

/-- The Machine State (R20), with the model's own `params` and `draws`. -/
structure State where
  /-- General registers `x[0..15]` (R21); VF is `x[15]` (R22). -/
  x : Vector Byte 16
  /-- The index register `I` (R25). -/
  index : Word
  /-- The program counter (R23, R24). -/
  pc : Word
  /-- The call stack's entries (R26). -/
  stack : Vector Word 16
  /-- The stack pointer, 0 to 16 (R26). -/
  sp : Fin 17
  /-- The delay timer (R27). -/
  dt : Byte
  /-- The sound timer (R27). -/
  st : Byte
  /-- The display bitmap (R28). -/
  disp : Display
  /-- The key vector (R29). -/
  keys : Vector Bool 16
  /-- The memory (R30). -/
  mem : Memory
  /-- The run state (R31). -/
  run : RunState
  /-- The error that caused a halt (R32). -/
  err : Option RunError
  /-- The parameters of R6 that instructions read: the model's own field, never written (log entry 1). -/
  params : Params
  /-- How many random bytes have been drawn: the model's own field (log entry 4). -/
  draws : Nat
  deriving DecidableEq, Repr

/-- The machine right after reset, under the default parameters, before an image is loaded (R36, R230). The pc, `run`,
`err` are the spec's; the zeros are its decision D2, DESIGN CHOICE (log entry 6), unsafe. -/
def State.reset : State where
  x := Vector.replicate 16 0
  index := 0
  pc := 0x200
  stack := Vector.replicate 16 0
  sp := 0
  dt := 0
  st := 0
  disp := Vector.replicate 32 (Vector.replicate 64 false)
  keys := Vector.replicate 16 false
  mem := []
  run := .running
  err := none
  params := defaultParams
  draws := 0

end Sys2Proof.Machine
end

