-- ==== Sys2Proof/Machine/Memory.lean ====
section
/-! DEFINITION. Memory as spec/20_memory.md gives it: the canonical form, the byte operations `mem[a]` and
`mem[a] <- v`, and the checked primitives MemRead and MemWrite (R52, R53). -/

namespace Sys2Proof.Machine

/-- The listed addresses rise strictly from `lo` up, stay below 4096, and list no byte that is read there anyway. -/
def Memory.wfFrom (lo : Nat) : Memory → Bool
  | [] => true
  | (a, b) :: m =>
    decide (lo ≤ a) && decide (a < 4096) && decide (b ≠ unlisted a) && Memory.wfFrom (a + 1) m

/-- The canonical form holds. -/
def Memory.wf (m : Memory) : Bool := Memory.wfFrom 0 m

/-- `mem[a]` (R8): the byte at an address, with no bounds check. -/
def Memory.read : Memory → Nat → Byte
  | [], a => unlisted a
  | (k, b) :: m, a => if a = k then b else Memory.read m a

/-- Drop the entry of an address. -/
def Memory.erase (a : Nat) : Memory → Memory
  | [] => []
  | (k, b) :: m => if a = k then Memory.erase a m else (k, b) :: Memory.erase a m

/-- Put an entry in its place, replacing one at the same address. -/
def Memory.insert (a : Nat) (b : Byte) : Memory → Memory
  | [] => [(a, b)]
  | (k, c) :: m =>
    if a < k then (a, b) :: (k, c) :: m
    else if a = k then (a, b) :: m
    else (k, c) :: Memory.insert a b m

/-- `mem[a] <- v` for an address of the machine; an address that does not exist holds nothing. Every instruction
checks its range first (R53). -/
def Memory.write (m : Memory) (a : Nat) (v : Byte) : Memory :=
  if a < 4096 then
    if v = unlisted a then Memory.erase a m else Memory.insert a v m
  else m

/-- The bytes at `base .. base+n-1`, ascending (R54). -/
def Memory.readBytes (m : Memory) (base : Nat) : Nat → List Byte
  | 0 => []
  | n + 1 => m.read base :: Memory.readBytes m (base + 1) n

/-- Store bytes at ascending addresses from `base` (R54). -/
def Memory.writeBytes (m : Memory) (base : Nat) : List Byte → Memory
  | [] => m
  | v :: vs => Memory.writeBytes (m.write base v) (base + 1) vs

/-- The check of R52, R53 and `require_in_bounds` (R8) for `n` bytes from `addr`: the highest address is below 4096.
An access of no bytes is never checked (R183, N = 0). -/
def rangeOk (addr n : Nat) : Bool := n == 0 || decide (addr + n - 1 < 4096)

/-- `MemRead` of `n` bytes, in memory order (R52, R54); `none` raises OutOfBoundsAccess. -/
def memRead (m : Memory) (addr n : Nat) : Option (List Byte) :=
  if rangeOk addr n then some (m.readBytes addr n) else none

/-- `MemWrite` of bytes at ascending addresses, the whole range checked before the first write (R53; the spec's
decision D9, log entry 15); `none` raises OutOfBoundsAccess. -/
def memWrite (m : Memory) (addr : Nat) (vs : List Byte) : Option Memory :=
  if rangeOk addr vs.length then some (m.writeBytes addr vs) else none

/-- `MemRead(addr, 2)` of a fetch: big-endian (R52, R54); `none` raises OutOfBoundsAccess. -/
def memReadWord (m : Memory) (addr : Nat) : Option Word :=
  if rangeOk addr 2 then some (wordOfBytes (m.read addr) (m.read (addr + 1))) else none

end Sys2Proof.Machine
end

