-- ==== Sys2Proof/Machine/Ops.lean ====
section
/-! DEFINITION. The named operations over the state: registers, pc, call stack, timers, display pixels, and the one
way an error is taken (spec/60_exceptions.md R204). -/

namespace Sys2Proof.Machine

/-- `x[i]` (R8, R21). -/
def State.reg (s : State) (i : Nibble) : Byte := s.x[i.toNat]'(i.isLt)

/-- `x[i] <- v` (R8, R21): no register is hardwired. -/
def State.writeReg (i : Nibble) (v : Byte) (s : State) : State :=
  { s with x := s.x.set i.toNat v i.isLt }

/-- Register 15, VF (R22). -/
abbrev vf : Nibble := 15

/-- Load registers `x[k]`, `x[k+1]`, ... from a list of bytes, ascending (R165). -/
def loadRegs (x : Vector Byte 16) (k : Nat) : List Byte → Vector Byte 16
  | [] => x
  | b :: bs => loadRegs (x.setIfInBounds k b) (k + 1) bs

/-- The whole register file replaced. -/
def State.setRegs (x : Vector Byte 16) (s : State) : State := { s with x := x }

/-- `I <- v` (R8, R25). -/
def State.setIndex (v : Word) (s : State) : State := { s with index := v }

/-- `pc <- target` (R8, R24). A target is checked by the next fetch, not here (R120). -/
def State.setPc (v : Word) (s : State) : State := { s with pc := v }

/-- `pc <- pc + 2` (R24). The 16-bit sum wraps only where no fetch succeeds (log entry 11). -/
def State.advance (s : State) : State := s.setPc (s.pc + 2)

/-- A skip: `pc + 4` when the condition holds, else `pc + 2` (R24, R120). -/
def State.skipIf (c : Bool) (s : State) : State := if c then s.setPc (s.pc + 4) else s.advance

/-- `mem` replaced. -/
def State.setMem (m : Memory) (s : State) : State := { s with mem := m }

/-- `disp` replaced. -/
def State.setDisp (d : Display) (s : State) : State := { s with disp := d }

/-- `dt <- v` (R27). -/
def State.setDelay (v : Byte) (s : State) : State := { s with dt := v }

/-- `st <- v` (R27). -/
def State.setSoundTimer (v : Byte) (s : State) : State := { s with st := v }

/-- One more random byte drawn (R152). -/
def State.countDraw (s : State) : State := { s with draws := s.draws + 1 }

/-- `rand_byte()` (R8): the byte of the next draw, a free value (log entry 4). -/
def State.randByte (s : State) : Byte := Config.randByte s.draws

/-- The pc a `call` pushes: `pc + LINK_OFFSET` (R123, log entry 10). -/
def State.linkAddress (s : State) : Word :=
  match s.params.linkOffset with
  | .zero => s.pc
  | .two => s.pc + 2

/-- A push (R26): writes `stack[sp]`, then increments `sp`; `none` with all 16 entries in use. -/
def State.push (v : Word) (s : State) : Option State :=
  if h : s.sp.val < 16 then
    some { s with stack := s.stack.set s.sp.val v h, sp := ⟨s.sp.val + 1, by omega⟩ }
  else none

/-- A pop (R26): decrements `sp`, then reads `stack[sp]`, leaving the entry's bits; `none` with no entry in use. -/
def State.pop (s : State) : Option (Word × State) :=
  if h : 0 < s.sp.val then
    some (s.stack[s.sp.val - 1]'(by omega), { s with sp := ⟨s.sp.val - 1, by omega⟩ })
  else none

/-- TAKING AN ERROR (R204), the machine's whole trap entry: `run <- Halted`, `err <- e`, every other piece of state as
it was when the step began, the pc among it. Nothing is saved, there is no handler, and no instruction returns from
it (R206). -/
def raise (e : RunError) (s : State) : Host.Outcome State Fault Refusal :=
  .next { s with run := .halted, err := some e }

/-- The end of a run by the `halt` instruction (R121, R208): `run <- Halted`, `err <- None`. -/
def State.haltNormally (s : State) : State := { s with run := .halted, err := none }

/-- `disp[row][col]`, false where no such pixel exists (R180). -/
def Display.pixel (d : Display) (row col : Nat) : Bool :=
  if h : row < 32 ∧ col < 64 then (d[row]'h.1)[col]'h.2 else false

/-- `disp[row][col] <- not disp[row][col]`; a position off the 64 by 32 bitmap is skipped, never wrapped (R180). -/
def Display.toggle (d : Display) (row col : Nat) : Display :=
  if h : row < 32 ∧ col < 64 then
    d.set row ((d[row]'h.1).set col (!((d[row]'h.1)[col]'h.2)) h.2) h.1
  else d

/-- The blank display (R181). -/
def Display.blank : Display := Vector.replicate 32 (Vector.replicate 64 false)

/-- One bit of a sprite byte (R183): column `c` of the sprite is bit `7 - c` (R184, PRESUMED, log entry 17), drawn at
column `x0 + c`. A 1 bit on the screen inverts its pixel, and hits when the pixel was lit (K2, PRESUMED, log
entry 18). -/
def plotBit (x0 row : Nat) (byte : Byte) (acc : Display × Bool) (c : Nat) : Display × Bool :=
  if byte.getLsbD (7 - c) && decide (x0 + c < 64 ∧ row < 32) then
    (acc.1.toggle row (x0 + c), acc.2 || acc.1.pixel row (x0 + c))
  else acc

/-- One sprite row: columns 0 to 7 in order (R183). -/
def plotByte (x0 row : Nat) (byte : Byte) (acc : Display × Bool) : Display × Bool :=
  [0, 1, 2, 3, 4, 5, 6, 7].foldl (plotBit x0 row byte) acc

/-- The sprite's rows, the first at row `y0`, downward (R183). Sums are unbounded, nothing wraps (the spec's decision
D10, log entry 16). -/
def plotSprite (x0 y0 : Nat) : List Byte → Display × Bool → Display × Bool
  | [], acc => acc
  | b :: bs, acc => plotSprite x0 (y0 + 1) bs (plotByte x0 y0 b acc)

/-- The lowest-numbered pressed key (R193; the spec's decision D18, log entry 21). -/
def State.leastKey (s : State) : Option Nibble :=
  (s.keys.toList.findIdx? id).map (BitVec.ofNat 4)

/-- Store an instruction word at the pc, the high byte at the lower address (R54). -/
def State.placeWord (w : Word) (s : State) : State :=
  s.setMem (s.mem.writeBytes s.pc.toNat (bytesOfWord w))

end Sys2Proof.Machine
end

