-- ==== Sys2Proof/Machine/Operands.lean ====
section
/-! DEFINITION. The operand forms of the instructions: register, literal, 12-bit address, index-based address, key
index, sprite address, register range. -/

namespace Sys2Proof.Machine

/-- A 12-bit address as a 16-bit value: zero-extended (R72, R161). -/
def addrValue (nnn : Addr12) : Word := nnn.setWidth 16

/-- The target of `jump.r0`: `NNN + x[0]`, at most 4350, not reduced (R124). -/
def indexedTarget (nnn : Addr12) (s : State) : Word := nnn.setWidth 16 + (s.reg 0).setWidth 16

/-- The base of every data access: `I` as an unbounded integer (R160). -/
def State.dataBase (s : State) : Nat := s.index.toNat

/-- The key a register names: `x[X] & 0xF` (R190). -/
def keyIndex (x : Nibble) (s : State) : Nibble := (s.reg x).extractLsb' 0 4

/-- Whether key `k` is pressed (R29). -/
def State.keyDown (s : State) (k : Nibble) : Bool := s.keys[k.toNat]'(k.isLt)

/-- The address of a digit's sprite: `(x[X] & 0xF) * 5` (R163). -/
def spriteAddress (v : Byte) : Word := (v &&& 0x0F).setWidth 16 * 5

/-- The registers `x[0]` to `x[X]`, ascending (R164). -/
def regRange (x : Nibble) (s : State) : List Byte := s.x.toList.take (x.toNat + 1)

/-- How many registers or bytes `dump` and `fill` move: `X + 1` (R164). -/
def rangeCount (x : Nibble) : Nat := x.toNat + 1

/-- The three decimal digits of a byte, hundreds first (R166; K4, PRESUMED, log entry 22). -/
def bcdDigits (a : Byte) : List Byte := [a / 100, a / 10 % 10, a % 10]

end Sys2Proof.Machine
end

