-- ==== Sys2Proof/Machine/Alu.lean ====
section
/-! DEFINITION. Register moves, arithmetic, logic, shifts, random (spec/41_alu.md R140 to R153). Operands are read
before any write; where an instruction writes a result and VF, the later write wins at `X = 15` (R140, log
entry 12). -/

namespace Sys2Proof.Machine

/-- One result into `x[X]`, no flag, `pc + 2` (R140). -/
def storeResult (x : Nibble) (v : Byte) (s : State) : Host.Outcome State Fault Refusal :=
  .next (s.writeReg x v).advance

/-- The result first, then the flag: the order of `add.reg`, `sub`, `revsub` and `draw` (R140). -/
def storeResultThenFlag (x : Nibble) (v : Byte) (c : Bool) (s : State) : Host.Outcome State Fault Refusal :=
  .next ((s.writeReg x v).writeReg vf (flagByte c)).advance

/-- The flag first, then the result: the order of the shifts (R140). -/
def storeFlagThenResult (x : Nibble) (v : Byte) (c : Bool) (s : State) : Host.Outcome State Fault Refusal :=
  .next ((s.writeReg vf (flagByte c)).writeReg x v).advance

/-- `set.imm` 6XNN (R141). -/
def execSetImm (x : Nibble) (nn : Byte) (s : State) : Host.Outcome State Fault Refusal :=
  storeResult x nn s

/-- `add.imm` 7XNN (R142): wraps modulo 256, no flag. -/
def execAddImm (x : Nibble) (nn : Byte) (s : State) : Host.Outcome State Fault Refusal :=
  storeResult x (s.reg x + nn) s

/-- `set.reg` 8XY0 (R143). -/
def execSetReg (x y : Nibble) (s : State) : Host.Outcome State Fault Refusal :=
  storeResult x (s.reg y) s

/-- `or` 8XY1 (R144). -/
def execOr (x y : Nibble) (s : State) : Host.Outcome State Fault Refusal :=
  storeResult x (s.reg x ||| s.reg y) s

/-- `and` 8XY2 (R145). -/
def execAnd (x y : Nibble) (s : State) : Host.Outcome State Fault Refusal :=
  storeResult x (s.reg x &&& s.reg y) s

/-- `xor` 8XY3 (R146). -/
def execXor (x y : Nibble) (s : State) : Host.Outcome State Fault Refusal :=
  storeResult x (s.reg x ^^^ s.reg y) s

/-- `add.reg` 8XY4 (R147). -/
def execAddReg (x y : Nibble) (s : State) : Host.Outcome State Fault Refusal :=
  storeResultThenFlag x (s.reg x + s.reg y) (carryFlag (s.reg x) (s.reg y)) s

/-- `sub` 8XY5 (R148). -/
def execSub (x y : Nibble) (s : State) : Host.Outcome State Fault Refusal :=
  storeResultThenFlag x (s.reg x - s.reg y) (noBorrowFlag (s.reg x) (s.reg y)) s

/-- `rshift` 8XY6 (R149): logical, by one, of `x[X]` itself. -/
def execRshift (x : Nibble) (s : State) : Host.Outcome State Fault Refusal :=
  storeFlagThenResult x (s.reg x >>> 1) (lsbFlag (s.reg x)) s

/-- `revsub` 8XY7 (R150). -/
def execRevsub (x y : Nibble) (s : State) : Host.Outcome State Fault Refusal :=
  storeResultThenFlag x (s.reg y - s.reg x) (revsubFlag (s.reg x) (s.reg y)) s

/-- `lshift` 8XYE (R151): by one, of `x[X]` itself. -/
def execLshift (x : Nibble) (s : State) : Host.Outcome State Fault Refusal :=
  storeFlagThenResult x (s.reg x <<< 1) (msbFlag (s.reg x)) s

/-- `random` CXNN (R152): a fresh free byte, masked. -/
def execRandom (x : Nibble) (nn : Byte) (s : State) : Host.Outcome State Fault Refusal :=
  storeResult x (s.randByte &&& nn) s.countDraw

end Sys2Proof.Machine
end

