-- ==== Sys2Proof/Machine/Control.lean ====
section
/-! DEFINITION. Control transfer (spec/40_control.md R120 to R129). -/

namespace Sys2Proof.Machine

/-- `halt` 0000 (R121): the pc advances, as the spec decides (D15, log entry 9). -/
def execHalt (s : State) : Host.Outcome State Fault Refusal :=
  .next s.haltNormally.advance

/-- `return` 00EE (R122): the pc is the popped entry, not advanced further. -/
def execReturn (s : State) : Host.Outcome State Fault Refusal :=
  match s.pop with
  | none => raise .stackUnderflow s
  | some (v, s') => .next (s'.setPc v)

/-- `call` 2NNN (R123): pushes `pc + LINK_OFFSET`. -/
def execCall (nnn : Addr12) (s : State) : Host.Outcome State Fault Refusal :=
  match s.push s.linkAddress with
  | none => raise .stackOverflow s
  | some s' => .next (s'.setPc (addrValue nnn))

/-- `jump.r0` BNNN (R124): the register is always `x[0]`. -/
def execJumpR0 (nnn : Addr12) (s : State) : Host.Outcome State Fault Refusal :=
  .next (s.setPc (indexedTarget nnn s))

/-- `jump` 1NNN (R125). -/
def execJump (nnn : Addr12) (s : State) : Host.Outcome State Fault Refusal :=
  .next (s.setPc (addrValue nnn))

/-- `skip-if-eq.imm` 3XNN (R126). -/
def execSkipIfEqImm (x : Nibble) (nn : Byte) (s : State) : Host.Outcome State Fault Refusal :=
  .next (s.skipIf (s.reg x == nn))

/-- `skip-if-ne.imm` 4XNN (R127). -/
def execSkipIfNeImm (x : Nibble) (nn : Byte) (s : State) : Host.Outcome State Fault Refusal :=
  .next (s.skipIf (s.reg x != nn))

/-- `skip-if-eq.reg` 5XY0 (R128). -/
def execSkipIfEqReg (x y : Nibble) (s : State) : Host.Outcome State Fault Refusal :=
  .next (s.skipIf (s.reg x == s.reg y))

/-- `skip-if-ne.reg` 9XY0 (R129). -/
def execSkipIfNeReg (x y : Nibble) (s : State) : Host.Outcome State Fault Refusal :=
  .next (s.skipIf (s.reg x != s.reg y))

end Sys2Proof.Machine
end

