-- ==== Sys2Proof/Machine/DisplayInstr.lean ====
section
/-! DEFINITION. Display instructions (spec/43_display.md R180 to R184). Coordinates are used as they stand, 0 to 255;
what falls off the screen is skipped (R180). -/

namespace Sys2Proof.Machine

/-- `clear-screen` 00E0 (R181): VF is not written. -/
def execClearScreen (s : State) : Host.Outcome State Fault Refusal :=
  .next (s.setDisp Display.blank).advance

/-- `toggle-pixel` 5XY1 (R182): clipped, no flag (the spec's decision D13, log entry 19). -/
def execTogglePixel (x y : Nibble) (s : State) : Host.Outcome State Fault Refusal :=
  .next (s.setDisp (s.disp.toggle (s.reg y).toNat (s.reg x).toNat)).advance

/-- `draw` DXYN (R183): the coordinates are read before VF is written; all N bytes are checked and read. -/
def execDraw (x y n : Nibble) (s : State) : Host.Outcome State Fault Refusal :=
  match memRead s.mem s.dataBase n.toNat with
  | none => raise .outOfBoundsAccess s
  | some bytes =>
    let r := plotSprite (s.reg x).toNat (s.reg y).toNat bytes (s.disp, false)
    .next ((s.setDisp r.1).writeReg vf (flagByte r.2)).advance

end Sys2Proof.Machine
end

