-- ==== Sys2Proof/Machine/IndexMemory.lean ====
section
/-! DEFINITION. Index register and memory instructions (spec/42_index_memory.md R160 to R166). Each checks its whole
range before it writes; none changes `I` as a side effect (R160). -/

namespace Sys2Proof.Machine

/-- `set-index` ANNN (R161). -/
def execSetIndex (nnn : Addr12) (s : State) : Host.Outcome State Fault Refusal :=
  .next (s.setIndex (addrValue nnn)).advance

/-- `add-index` FX1E (R162): wraps modulo 65536, no flag, no error (the spec's decision D8, log entry 14). -/
def execAddIndex (x : Nibble) (s : State) : Host.Outcome State Fault Refusal :=
  .next (s.setIndex (s.index + (s.reg x).setWidth 16)).advance

/-- `set-sprite` FX29 (R163): computes an address, reads no memory. -/
def execSetSprite (x : Nibble) (s : State) : Host.Outcome State Fault Refusal :=
  .next (s.setIndex (spriteAddress (s.reg x))).advance

/-- Bytes stored from `I` up, then `pc + 2`; OutOfBoundsAccess when the range does not exist (R160). -/
def storeFromIndex (vs : List Byte) (s : State) : Host.Outcome State Fault Refusal :=
  match memWrite s.mem s.dataBase vs with
  | none => raise .outOfBoundsAccess s
  | some m => .next (s.setMem m).advance

/-- `dump` FX55 (R164). -/
def execDump (x : Nibble) (s : State) : Host.Outcome State Fault Refusal :=
  storeFromIndex (regRange x s) s

/-- `fill` FX65 (R165): loads, or stores as `dump` does, by FILL_MODE (log entry 23). -/
def execFill (x : Nibble) (s : State) : Host.Outcome State Fault Refusal :=
  match s.params.fillMode with
  | .load =>
    match memRead s.mem s.dataBase (rangeCount x) with
    | none => raise .outOfBoundsAccess s
    | some bs => .next (s.setRegs (loadRegs s.x 0 bs)).advance
  | .store => storeFromIndex (regRange x s) s

/-- `bcd` FX33 (R166): stores three digits, or only advances, by BCD_MODE (log entry 22). -/
def execBcd (x : Nibble) (s : State) : Host.Outcome State Fault Refusal :=
  match s.params.bcdMode with
  | .full => storeFromIndex (bcdDigits (s.reg x)) s
  | .stub => .next s.advance

end Sys2Proof.Machine
end

