-- ==== Sys2Proof/Machine/KeysTimers.lean ====
section
/-! DEFINITION. Key and timer instructions (spec/44_keys_timers.md R190 to R196). -/

namespace Sys2Proof.Machine

/-- `skip-if-key` EX9E (R191). -/
def execSkipIfKey (x : Nibble) (s : State) : Host.Outcome State Fault Refusal :=
  .next (s.skipIf (s.keyDown (keyIndex x s)))

/-- `skip-if-not-key` EXA1 (R192). -/
def execSkipIfNotKey (x : Nibble) (s : State) : Host.Outcome State Fault Refusal :=
  .next (s.skipIf (!s.keyDown (keyIndex x s)))

/-- `await-key` FX0A (R193): a step with no key pressed changes nothing, so the next step executes it again; by
AWAIT_KEY_MODE it may only advance (log entry 21). -/
def execAwaitKey (x : Nibble) (s : State) : Host.Outcome State Fault Refusal :=
  match s.params.awaitKeyMode with
  | .stub => .next s.advance
  | .block =>
    match s.leastKey with
    | some k => .next (s.writeReg x (k.setWidth 8)).advance
    | none => .next s

/-- `get-timer` FX07 (R194). -/
def execGetTimer (x : Nibble) (s : State) : Host.Outcome State Fault Refusal :=
  .next (s.writeReg x s.dt).advance

/-- `set-timer` FX15 (R195). -/
def execSetTimer (x : Nibble) (s : State) : Host.Outcome State Fault Refusal :=
  .next (s.setDelay (s.reg x)).advance

/-- `set-sound` FX18 (R196). -/
def execSetSound (x : Nibble) (s : State) : Host.Outcome State Fault Refusal :=
  .next (s.setSoundTimer (s.reg x)).advance

end Sys2Proof.Machine
end

