-- ==== Sys2Proof/Machine/Dispatch.lean ====
section
/-! DEFINITION. `execute d` of spec/30_encoding.md R73: one arm per instruction of the opcode map (R78). -/

namespace Sys2Proof.Machine

/-- The effect of an instruction (R73, R78). -/
def exec (i : Instr) (s : State) : Host.Outcome State Fault Refusal :=
  match i with
  | .halt => Sys2Proof.Machine.execHalt s
  | .clearScreen => Sys2Proof.Machine.execClearScreen s
  | .ret => Sys2Proof.Machine.execReturn s
  | .jump nnn => Sys2Proof.Machine.execJump nnn s
  | .call nnn => Sys2Proof.Machine.execCall nnn s
  | .skipIfEqImm x nn => Sys2Proof.Machine.execSkipIfEqImm x nn s
  | .skipIfNeImm x nn => Sys2Proof.Machine.execSkipIfNeImm x nn s
  | .skipIfEqReg x y => Sys2Proof.Machine.execSkipIfEqReg x y s
  | .togglePixel x y => Sys2Proof.Machine.execTogglePixel x y s
  | .setImm x nn => Sys2Proof.Machine.execSetImm x nn s
  | .addImm x nn => Sys2Proof.Machine.execAddImm x nn s
  | .setReg x y => Sys2Proof.Machine.execSetReg x y s
  | .bitOr x y => Sys2Proof.Machine.execOr x y s
  | .bitAnd x y => Sys2Proof.Machine.execAnd x y s
  | .bitXor x y => Sys2Proof.Machine.execXor x y s
  | .addReg x y => Sys2Proof.Machine.execAddReg x y s
  | .sub x y => Sys2Proof.Machine.execSub x y s
  | .rshift x => Sys2Proof.Machine.execRshift x s
  | .revsub x y => Sys2Proof.Machine.execRevsub x y s
  | .lshift x => Sys2Proof.Machine.execLshift x s
  | .skipIfNeReg x y => Sys2Proof.Machine.execSkipIfNeReg x y s
  | .setIndex nnn => Sys2Proof.Machine.execSetIndex nnn s
  | .jumpR0 nnn => Sys2Proof.Machine.execJumpR0 nnn s
  | .random x nn => Sys2Proof.Machine.execRandom x nn s
  | .draw x y n => Sys2Proof.Machine.execDraw x y n s
  | .skipIfKey x => Sys2Proof.Machine.execSkipIfKey x s
  | .skipIfNotKey x => Sys2Proof.Machine.execSkipIfNotKey x s
  | .getTimer x => Sys2Proof.Machine.execGetTimer x s
  | .awaitKey x => Sys2Proof.Machine.execAwaitKey x s
  | .setTimer x => Sys2Proof.Machine.execSetTimer x s
  | .setSound x => Sys2Proof.Machine.execSetSound x s
  | .addIndex x => Sys2Proof.Machine.execAddIndex x s
  | .setSprite x => Sys2Proof.Machine.execSetSprite x s
  | .bcd x => Sys2Proof.Machine.execBcd x s
  | .dump x => Sys2Proof.Machine.execDump x s
  | .fill x => Sys2Proof.Machine.execFill x s

end Sys2Proof.Machine
end

