-- ==== Sys2Proof/Machine/Fetch.lean ====
section
/-! DEFINITION. What a step is to do, found before anything is executed (spec/30_encoding.md R73 to R75): the checks in
the order of spec/60_exceptions.md R205. -/

namespace Sys2Proof.Machine

/-- What a step is to do. -/
inductive Action where
  /-- Nothing: the engine is Halted (R31, R206). -/
  | idle
  /-- Raise an error of the fetch or the decoder. -/
  | error (e : RunError)
  /-- Execute an instruction. -/
  | execute (i : Instr)
  deriving DecidableEq, Repr

/-- The fetch (R74): the word at `pc`, `pc + 1`, read from `mem` at this moment (R60), at any alignment (R55). -/
def fetch (s : State) : Option Word := memReadWord s.mem s.pc.toNat

/-- The order of the checks (R205): Halted, fetch, decode. -/
def nextAction (s : State) : Action :=
  match s.run with
  | .halted => .idle
  | .running =>
    match fetch s with
    | none => .error .outOfBoundsAccess
    | some w =>
      match decodeWord w with
      | none => .error .invalidOpcode
      | some i => .execute i

end Sys2Proof.Machine
end

