-- ==== Sys2Proof/Machine/Step.lean ====
section
/-! DEFINITION. `step()` (spec/30_encoding.md R73), and the placing of one instruction where it is fetched. -/

namespace Sys2Proof.Machine

/-- `step()` (R73): nothing in Halted, else one error raised or one instruction executed. -/
def step (s : State) : Host.Outcome State Fault Refusal :=
  match nextAction s with
  | .idle => .next s
  | .error e => raise e s
  | .execute i => exec i s

/-- The state with the instruction word `w` (its bits above `nbits` being 0) at the pc, high byte first; it stands for
a load of the program (log entry 27). Nothing else changes. -/
def State.withFetchWord (s : State) (nbits w : Nat) : State :=
  s.placeWord (BitVec.ofNat 16 (w % 2 ^ nbits))

end Sys2Proof.Machine
end

