-- ==== Sys2Proof/Machine/Assembler.lean ====
section
/-! DEFINITION. The Instruction Encoder and the assembler passes around it (spec/30_encoding.md R90 to R108), from the
lexer's tokens to the binary image. The CPU does not depend on this file. -/

namespace Sys2Proof.Machine

/-- The document's mnemonics (R92): shared names stand for several encodings (R77). -/
inductive InstrName where
  | halt | clearScreen | ret | jump | call | skipIfEq | skipIfNe | togglePixel | set | add
  | bitOr | bitAnd | bitXor | sub | rshift | revsub | lshift | setIndex | random | draw
  | skipIfKey | skipIfNotKey | getTimer | awaitKey | setTimer | setSound | addIndex | setSprite
  | bcd | dump | fill
  deriving DecidableEq, Repr

/-- A mnemonic token's value: an instruction, or the one pseudo-op `data` (R103). -/
inductive Mnemonic where
  | instr (name : InstrName)
  | data
  deriving DecidableEq, Repr

/-- An argument (R91). A literal is at most 4095 by its type. -/
inductive Argument where
  | register (r : Nibble)
  | indexRegister
  | literal (v : Addr12)
  | label (name : String)
  | timer
  | sound
  deriving DecidableEq, Repr

/-- The assembler's errors (R107); the first three named of R102 and the two of R90 are SyntaxErrors. -/
inductive AsmErrorKind where
  | wrongArity
  | wrongOperandKind
  | unexpectedToken
  | expectedComma
  | tooManyArguments
  | rangeError
  | undefinedLabel
  | duplicateLabel
  | tooManyLabels
  deriving DecidableEq, Repr

/-- Whether an error is of the taxonomy's `SyntaxError` (R102, R107). -/
def AsmErrorKind.isSyntaxError : AsmErrorKind → Bool
  | .wrongArity => true
  | .wrongOperandKind => true
  | .unexpectedToken => true
  | .expectedComma => true
  | .tooManyArguments => true
  | .rangeError => false
  | .undefinedLabel => false
  | .duplicateLabel => false
  | .tooManyLabels => false

/-- An assembler error "carries a line number" (R107). -/
structure AsmError where
  kind : AsmErrorKind
  line : Nat
  deriving DecidableEq, Repr

/-- A label and the 16-bit address it names (R9, R101). -/
structure Label where
  name : String
  address : Word
  deriving DecidableEq, Repr

/-- The Symbol Table (R9, R101). -/
abbrev SymbolTable := List Label

/-- The address of a label, if the table has it. -/
def SymbolTable.lookup (labels : SymbolTable) (name : String) : Option Word :=
  (labels.find? fun l => l.name == name).map Label.address

/-- No argument (R92). -/
def noArgs (args : List Argument) (i : Instr) : Except AsmErrorKind Instr :=
  match args with
  | [] => .ok i
  | _ => .error .wrongArity

/-- The operand forms `Rx` (R92). -/
def argReg (args : List Argument) (mk : Nibble → Instr) : Except AsmErrorKind Instr :=
  match args with
  | [.register x] => .ok (mk x)
  | [_] => .error .wrongOperandKind
  | _ => .error .wrongArity

/-- The operand forms `Rx, Ry` (R92). -/
def argRegReg (args : List Argument) (mk : Nibble → Nibble → Instr) : Except AsmErrorKind Instr :=
  match args with
  | [.register x, .register y] => .ok (mk x y)
  | [_, _] => .error .wrongOperandKind
  | _ => .error .wrongArity

/-- A literal in an 8-bit field (R90, R91). -/
def literal8 (v : Addr12) : Except AsmErrorKind Byte :=
  if v.toNat ≤ 255 then .ok (v.setWidth 8) else .error .rangeError

/-- A literal in a 4-bit field (R90, R91). -/
def literal4 (v : Addr12) : Except AsmErrorKind Nibble :=
  if v.toNat ≤ 15 then .ok (v.setWidth 4) else .error .rangeError

/-- The operand forms `Rx, NN` (R92). -/
def argRegLit (args : List Argument) (mk : Nibble → Byte → Instr) : Except AsmErrorKind Instr :=
  match args with
  | [.register x, .literal v] => (literal8 v).map (mk x)
  | [_, _] => .error .wrongOperandKind
  | _ => .error .wrongArity

/-- The rows that share a mnemonic (R93): the kind of the second argument selects the row. -/
def argRegEither (args : List Argument) (mkReg : Nibble → Nibble → Instr) (mkImm : Nibble → Byte → Instr) :
    Except AsmErrorKind Instr :=
  match args with
  | [.register x, .register y] => .ok (mkReg x y)
  | [.register x, .literal v] => (literal8 v).map (mkImm x)
  | [_, _] => .error .wrongOperandKind
  | _ => .error .wrongArity

/-- The operand forms `Rx, Ry, N` (R92). -/
def argRegRegN (args : List Argument) (mk : Nibble → Nibble → Nibble → Instr) : Except AsmErrorKind Instr :=
  match args with
  | [.register x, .register y, .literal v] => (literal4 v).map (mk x y)
  | [_, _, _] => .error .wrongOperandKind
  | _ => .error .wrongArity

/-- A label's address in an address field: resolved through the table, then held to 12 bits (R90, R91; the spec's
decision D34, log entry 31). -/
def resolveLabel (labels : SymbolTable) (name : String) : Except AsmErrorKind Addr12 :=
  match labels.lookup name with
  | none => .error .undefinedLabel
  | some a => if a.toNat ≤ 4095 then .ok (a.setWidth 12) else .error .rangeError

/-- The operand form `addr` (R91): a literal or a label. -/
def argAddr (labels : SymbolTable) (args : List Argument) (mk : Addr12 → Instr) : Except AsmErrorKind Instr :=
  match args with
  | [.literal v] => .ok (mk v)
  | [.label name] => (resolveLabel labels name).map mk
  | [_] => .error .wrongOperandKind
  | _ => .error .wrongArity

/-- `jump` (R92, R93): one argument selects `jump`, two `jump.r0`, whose second must be register 0. -/
def argJump (labels : SymbolTable) (args : List Argument) : Except AsmErrorKind Instr :=
  match args with
  | [a] => argAddr labels [a] .jump
  | [a, .register r] => if r = 0 then argAddr labels [a] .jumpR0 else .error .wrongOperandKind
  | [_, _] => .error .wrongOperandKind
  | _ => .error .wrongArity

/-- The row of R92 that a mnemonic and its arguments select, with the checks in the order arity, kind, range, label
(R90, R94; the spec's decisions D27, D28, log entry 31). -/
def selectInstr (labels : SymbolTable) (name : InstrName) (args : List Argument) : Except AsmErrorKind Instr :=
  match name with
  | .halt => noArgs args .halt
  | .clearScreen => noArgs args .clearScreen
  | .ret => noArgs args .ret
  | .jump => argJump labels args
  | .call => argAddr labels args .call
  | .skipIfEq => argRegEither args .skipIfEqReg .skipIfEqImm
  | .skipIfNe => argRegEither args .skipIfNeReg .skipIfNeImm
  | .togglePixel => argRegReg args .togglePixel
  | .set => argRegEither args .setReg .setImm
  | .add => argRegEither args .addReg .addImm
  | .bitOr => argRegReg args .bitOr
  | .bitAnd => argRegReg args .bitAnd
  | .bitXor => argRegReg args .bitXor
  | .sub => argRegReg args .sub
  | .rshift => argReg args .rshift
  | .revsub => argRegReg args .revsub
  | .lshift => argReg args .lshift
  | .setIndex => argAddr labels args .setIndex
  | .random => argRegLit args .random
  | .draw => argRegRegN args .draw
  | .skipIfKey => argReg args .skipIfKey
  | .skipIfNotKey => argReg args .skipIfNotKey
  | .getTimer => argReg args .getTimer
  | .awaitKey => argReg args .awaitKey
  | .setTimer => argReg args .setTimer
  | .setSound => argReg args .setSound
  | .addIndex => argReg args .addIndex
  | .setSprite => argReg args .setSprite
  | .bcd => argReg args .bcd
  | .dump => argReg args .dump
  | .fill => argReg args .fill

/-- Every argument of `data` is a literal. -/
def dataLiterals : List Argument → Except AsmErrorKind (List Addr12)
  | [] => .ok []
  | .literal v :: args => (dataLiterals args).map (v :: ·)
  | _ :: _ => .error .wrongOperandKind

/-- Every literal of `data` is at most 255. -/
def dataBytes : List Addr12 → Except AsmErrorKind (List Byte)
  | [] => .ok []
  | v :: vs => (literal8 v).bind fun b => (dataBytes vs).map (b :: ·)

/-- `data` (R92, R103): 1 to 8 literals, emitted as bytes in order. -/
def encodeData (args : List Argument) : Except AsmErrorKind (List Byte) :=
  if args.length = 0 ∨ 8 < args.length then .error .wrongArity
  else (dataLiterals args).bind dataBytes

/-- `encode(mnemonic, args)` (R90): bytes, or the first failing check and no bytes (R94, U7). -/
def encodeStatement (labels : SymbolTable) (m : Mnemonic) (args : List Argument) : Except AsmErrorKind (List Byte) :=
  match m with
  | .instr name => (selectInstr labels name args).map encodeBytes
  | .data => encodeData args

/-- The kinds of the lexer's tokens (R100, R102). `other` is any token the document does not name, an unrecognised
mnemonic among them (log entry 40). DESIGN CHOICE (log entry 42), safe: an argument token holds an `Argument`, whose
ranges R91 states, so a token with a literal above 4095 or a register above 15 is no input of the model. -/
inductive TokenKind where
  | labelDef (name : String)
  | mnemonic (m : Mnemonic)
  | argument (a : Argument)
  | comma
  | lineBreak
  | endMarker
  | other
  deriving DecidableEq, Repr

/-- A token (R100). -/
structure Token where
  kind : TokenKind
  line : Nat
  deriving DecidableEq, Repr

/-- A statement (R100): a label definition, or a mnemonic with the tokens after it up to and with the line break. A
token that starts no statement, such as an unrecognised mnemonic, is kept as `stray` (log entries 28, 40). -/
inductive Statement where
  | labelDef (name : String) (line : Nat)
  | op (m : Mnemonic) (line : Nat) (argTokens : List Token)
  | stray (line : Nat)
  deriving DecidableEq, Repr

/-- The statement being read: its mnemonic, its line, its argument tokens so far, the latest first. -/
structure OpenStatement where
  m : Mnemonic
  line : Nat
  tokens : List Token
  deriving DecidableEq, Repr

/-- The statement an open one becomes. -/
def OpenStatement.close (o : OpenStatement) : Statement := .op o.m o.line o.tokens.reverse

/-- The statements of a token sequence (R100). Empty lines are no statements; the end marker ends it. An unrecognised
mnemonic starts no statement and becomes `stray`, which either pass refuses: DESIGN CHOICE (log entry 40), safe. -/
def splitStatements : Option OpenStatement → List Token → List Statement
  | none, [] => []
  | some o, [] => [o.close]
  | some o, t :: ts =>
    match t.kind with
    | .lineBreak => { o with tokens := t :: o.tokens }.close :: splitStatements none ts
    | .endMarker => [{ o with tokens := t :: o.tokens }.close]
    | _ => splitStatements (some { o with tokens := t :: o.tokens }) ts
  | none, t :: ts =>
    match t.kind with
    | .lineBreak => splitStatements none ts
    | .endMarker => []
    | .labelDef name => .labelDef name t.line :: splitStatements none ts
    | .mnemonic m => splitStatements (some ⟨m, t.line, []⟩) ts
    | _ => .stray t.line :: splitStatements none ts

/-- Where the Argument Collector stands: before the first argument, after one, after a comma. -/
inductive CollectAt where
  | start
  | afterArg
  | afterComma
  deriving DecidableEq, Repr

/-- The Argument Collector (R102): `n` arguments are already collected, `line` is the statement's. -/
def collectArgs (line : Nat) : CollectAt → Nat → List Token → Except AsmError (List Argument)
  | _, _, [] => .error ⟨.unexpectedToken, line⟩
  | .start, n, t :: ts =>
    match t.kind with
    | .lineBreak => .ok []
    | .argument a => (collectArgs line .afterArg (n + 1) ts).map (a :: ·)
    | .comma => .error ⟨.expectedComma, t.line⟩
    | _ => .error ⟨.unexpectedToken, t.line⟩
  | .afterArg, n, t :: ts =>
    match t.kind with
    | .lineBreak => .ok []
    | .comma => collectArgs line .afterComma n ts
    | .argument _ => .error ⟨.expectedComma, t.line⟩
    | _ => .error ⟨.unexpectedToken, t.line⟩
  | .afterComma, n, t :: ts =>
    match t.kind with
    | .argument a =>
      if n < 8 then (collectArgs line .afterArg (n + 1) ts).map (a :: ·)
      else .error ⟨.tooManyArguments, t.line⟩
    | .comma => .error ⟨.expectedComma, t.line⟩
    | .lineBreak => .error ⟨.expectedComma, t.line⟩
    | _ => .error ⟨.unexpectedToken, t.line⟩

/-- Whether a token is a literal argument. -/
def Token.isLiteral (t : Token) : Bool :=
  match t.kind with
  | .argument (.literal _) => true
  | _ => false

/-- How far pass 1 moves the cursor for a statement (R101): the literals of `data`, else exactly 2. -/
def statementSize (m : Mnemonic) (argTokens : List Token) : Nat :=
  match m with
  | .data => argTokens.countP Token.isLiteral
  | .instr _ => 2

/-- Whether the table is full, under an optional ceiling (R101, U6). -/
def tableFull (cap : Option Nat) (labels : SymbolTable) : Bool :=
  match cap with
  | none => false
  | some n => decide (n ≤ labels.length)

/-- A cursor as a label's address (R9, R101: 16 bits unsigned). DESIGN CHOICE (log entry 33), safe: the cursor itself
is not bounded, and a label defined above 0xFFFF has no address to record and is a RangeError. -/
def labelAddress (cursor : Nat) : Except AsmErrorKind Word :=
  if cursor ≤ 0xFFFF then .ok (BitVec.ofNat 16 cursor) else .error .rangeError

/-- Pass 1 (R101): the cursor and the table so far; it stops at its first error. -/
def pass1 (cap : Option Nat) : Nat → SymbolTable → List Statement → Except AsmError SymbolTable
  | _, labels, [] => .ok labels
  | cursor, labels, .labelDef name line :: rest =>
    if (labels.lookup name).isSome then .error ⟨.duplicateLabel, line⟩
    else if tableFull cap labels then .error ⟨.tooManyLabels, line⟩
    else
      match labelAddress cursor with
      | .ok address => pass1 cap cursor (labels ++ [⟨name, address⟩]) rest
      | .error kind => .error ⟨kind, line⟩
  | cursor, labels, .op m _ argTokens :: rest => pass1 cap (cursor + statementSize m argTokens) labels rest
  | _, _, .stray line :: _ => .error ⟨.unexpectedToken, line⟩

/-- One statement's bytes: its arguments collected, then encoded (R102, R104). -/
def assembleOp (labels : SymbolTable) (m : Mnemonic) (line : Nat) (argTokens : List Token) : Except AsmError (List Byte) :=
  (collectArgs line .start 0 argTokens).bind fun args =>
    match encodeStatement labels m args with
    | .ok bytes => .ok bytes
    | .error kind => .error ⟨kind, line⟩

/-- Bytes at ascending addresses from the cursor (R103, R104). -/
def placeBytes (cursor : Nat) : List Byte → List Host.Cell
  | [] => []
  | b :: bs => (cursor, b) :: placeBytes (cursor + 1) bs

/-- Pass 2 (R104): each byte at the cursor's address, ascending; it stops at its first error. DESIGN CHOICE (log
entry 41), unsafe for claims that the assembler accepts a program: no check bounds the cursor by the end of memory;
`loadImage` refuses the image that is too long. -/
def pass2 (labels : SymbolTable) : Nat → List Statement → Except AsmError (List Host.Cell)
  | _, [] => .ok []
  | cursor, .labelDef _ _ :: rest => pass2 labels cursor rest
  | cursor, .op m line argTokens :: rest =>
    (assembleOp labels m line argTokens).bind fun bytes =>
      (pass2 labels (cursor + bytes.length) rest).map fun cells => placeBytes cursor bytes ++ cells
  | _, .stray line :: _ => .error ⟨.unexpectedToken, line⟩

/-- The binary image (R105): the bytes in address order, byte `i` for address 0x200 + i. -/
def assemble (cap : Option Nat) (tokens : List Token) : Except AsmError (List Byte) :=
  let statements := splitStatements none tokens
  (pass1 cap 0x200 [] statements).bind fun labels =>
    (pass2 labels 0x200 statements).map fun cells => cells.map Prod.snd

end Sys2Proof.Machine
end

