-- ==== Sys2Proof/Machine/HostOps.lean ====
section
/-! DEFINITION. The other atomic operations of the block's boundary (spec/10_state.md R38): reset with any parameters,
load_image, tick_timers, set_key, the host's reads, and the host's interleaving of them between steps
(spec/20_memory.md R62). -/

namespace Sys2Proof.Machine

/-- `reset()` (R230) for any value of the parameters of R6: the table of R36 with `FONT` in `mem[0..79]`. -/
def State.resetWith (font : Font) (params : Params) : State :=
  { State.reset with mem := Memory.writeBytes [] 0 font.toList, params := params }

/-- The most bytes an image may have: 3584 (R232). -/
def maxImage : Nat := 4096 - 0x200

/-- `load_image(bytes)` (R232): byte `i` to address 0x200 + i; a longer image is refused (the spec's decision D24,
log entry 26). The host calls it once, after reset and before the first step (R233). -/
def loadImage (bytes : List Byte) (s : State) : Host.Outcome State Fault Refusal :=
  if bytes.length ≤ maxImage then .next (s.setMem (s.mem.writeBytes 0x200 bytes))
  else .refused .imageTooLong

/-- One timer counts down and saturates at 0 (R213). -/
def countDown (t : Byte) : Byte := if t = 0 then 0 else t - 1

/-- `tick_timers()` (R213): `dt` and `st` only, in Halted as in Running (the spec's decision D22, log entry 24). -/
def tickTimers (s : State) : State := (s.setDelay (countDown s.dt)).setSoundTimer (countDown s.st)

/-- `set_key(k, b)` (R29, R38): `keys[k]` is true while key `k` is down. -/
def setKey (k : Nibble) (down : Bool) (s : State) : State :=
  { s with keys := s.keys.set k.toNat down k.isLt }

/-- The host's read of a general register (R37). -/
def hostReadReg (s : State) (i : Nibble) : Byte := s.reg i

/-- The host's read of a memory byte (R37); there is none at or above 4096. -/
def hostReadMem (s : State) (a : Nat) : Option Byte :=
  if a < 4096 then some (s.mem.read a) else none

/-- The host's read of a pixel (R37); there is none off the 64 by 32 bitmap. -/
def hostReadPixel (s : State) (row col : Nat) : Option Bool :=
  if row < 32 ∧ col < 64 then some (s.disp.pixel row col) else none

/-- The host's read of the run state and the error: the "error/quit flag" (R37, R208). -/
def hostReadFlag (s : State) : RunState × Option RunError := (s.run, s.err)

/-- The numeric code of `err` (R200; the spec's decision D17). -/
def errCode : Option RunError → Nat
  | none => 0
  | some .outOfBoundsAccess => 1
  | some .stackUnderflow => 2
  | some .stackOverflow => 3
  | some .invalidOpcode => 4

/-- What the host may do after the image is loaded (R38): these never overlap (R236). -/
inductive HostEvent where
  | step
  | tick
  | setKey (k : Nibble) (down : Bool)
  deriving DecidableEq, Repr

/-- One host operation (R38). -/
def HostEvent.apply (e : HostEvent) (s : State) : Host.Outcome State Fault Refusal :=
  match e with
  | .step => Sys2Proof.Machine.step s
  | .tick => .next (tickTimers s)
  | .setKey k down => .next (Sys2Proof.Machine.setKey k down s)

/-- Host operations in the order the host issues them (R62). -/
def runEvents : List HostEvent → State → Host.Outcome State Fault Refusal
  | [], s => .next s
  | e :: es, s =>
    match e.apply s with
    | .next t => runEvents es t
    | .fault r => .fault r
    | .refused r => .refused r

/-- Reset, then the image (R233): what must be done before the first step. -/
def boot (font : Font) (params : Params) (image : List Byte) : Host.Outcome State Fault Refusal :=
  loadImage image (State.resetWith font params)

end Sys2Proof.Machine
end

