-- ==== Sys2Proof/Safety.lean ====
section
/-! DEFINITION. What claims speak of: the ways a run ends (spec/60_exceptions.md R208), the machine's invariant
(spec/10_state.md R34), the states a run can reach, and a state's equality outside named fields. -/

namespace Sys2Proof.Machine

/-- The run ended well: Halted with no error (R208, R234). -/
def State.endedWell (s : State) : Prop := s.run = .halted ∧ s.err = none

/-- The run ended in a fault: Halted with an error, no successful end (R204, R208). -/
def State.endedInFault (s : State) : Prop := s.run = .halted ∧ s.err ≠ none

/-- The invariant of R34 and of the memory's form, with what R24 says of the pc made inductive: a live stack entry is
a return address, at most 4096. `0 <= sp <= 16` and the timers' ranges are in the field types. -/
structure State.Inv (s : State) : Prop where
  memWf : s.mem.wf = true
  runErr : s.run = .running → s.err = none
  pcBound : s.pc.toNat ≤ 4350
  stackBound : ∀ (k : Nat) (h : k < 16), k < s.sp.val → (s.stack[k]'h).toNat ≤ 4096

/-- The states of a run (R38, R233): reset with any parameters and an image that fits, then host operations. -/
inductive Reachable : State → Prop where
  | boot (font : Font) (params : Params) (image : List Byte) (s : State)
      (h : boot font params image = .next s) : Reachable s
  | event (s t : State) (e : HostEvent) (hs : Reachable s) (h : e.apply s = .next t) : Reachable t

end Sys2Proof.Machine
end

