-- ==== Sys2Proof/Certificates/Slice0/Obligations.lean ====
section
/-! DEFINITION. The statements for the provers, each a Prop, and the terms they are written in. Nothing is proved here. -/

namespace Sys2Proof.Claims

open Sys2Proof.Machine

/-- The outcome of `raise e` written out (spec/30_encoding.md R73): Halted with the error, nothing else changed. -/
def errorOutcome (e : RunError) (s : State) : Host.Outcome State Fault Refusal :=
  .next { s with run := .halted, err := some e }

/-- The word a fetch at the pc would read (spec/20_memory.md R54). -/
def wordAtPc (s : State) : Word := wordOfBytes (s.mem.read s.pc.toNat) (s.mem.read (s.pc.toNat + 1))

/-- The word `w` is an encoding of the instruction `i` (spec/30_encoding.md R75, R78). -/
def Spells (w : Nat) (i : Instr) : Prop := decodeWord (BitVec.ofNat 16 w) = some i

/-- `LINK_OFFSET` as a 16-bit number (spec/00_scope.md R6). -/
def linkValue : LinkOffset → Word
  | .zero => 0
  | .two => 2

/-- A flag's value in a register: 1 or 0 (spec/10_state.md R22). -/
def bit (p : Prop) [Decidable p] : Byte := if p then 1 else 0

/-- Register contents after an instruction that writes `v` to `x[X]` and nothing else. -/
def WritesOne (s t : State) (x : Nibble) (v : Byte) : Prop :=
  ∀ r, t.reg r = if r = x then v else s.reg r

/-- Register contents after the result `v` goes to `x[X]` and then the flag to `x[15]` (spec/41_alu.md R147). -/
def WritesResultThenFlag (s t : State) (x : Nibble) (v flag : Byte) : Prop :=
  ∀ r, t.reg r = if r = 15 then flag else if r = x then v else s.reg r

/-- Register contents after the flag goes to `x[15]` and then the result `v` to `x[X]` (spec/41_alu.md R149). -/
def WritesFlagThenResult (s t : State) (x : Nibble) (v flag : Byte) : Prop :=
  ∀ r, t.reg r = if r = x then v else if r = 15 then flag else s.reg r

/-- Only the registers and the pc differ, and the pc is past the instruction (a 16-bit sum, log entry 11). -/
def RegsAndPc (s t : State) : Prop := t = { s with x := t.x, pc := s.pc + 2 }

/-- Memory after `vs` is stored from `base` up: byte `k` of `vs` at `base + k`, every other byte as before. -/
def Stores (s t : State) (base : Nat) (vs : List Byte) : Prop :=
  (∀ k (h : k < vs.length), t.mem.read (base + k) = vs[k]) ∧
  (∀ a, a < base ∨ base + vs.length ≤ a → t.mem.read a = s.mem.read a)

/-- Only the memory and the pc differ, and the pc is past the instruction (a 16-bit sum, log entry 11). -/
def MemAndPc (s t : State) : Prop := t = { s with mem := t.mem, pc := s.pc + 2 }

/-- Whether the sprite of `draw Rx,Ry,N` has a 1 bit over a pixel (spec/43_display.md R183, R184). -/
def spriteBit (s : State) (x y n : Nibble) (row col : Nat) : Bool :=
  decide ((s.reg y).toNat ≤ row ∧ row < (s.reg y).toNat + n.toNat ∧
    (s.reg x).toNat ≤ col ∧ col < (s.reg x).toNat + 8) &&
  (s.mem.read (s.index.toNat + (row - (s.reg y).toNat))).getLsbD (7 - (col - (s.reg x).toNat))

/-- Whether `draw Rx,Ry,N` may read its sprite (spec/60_exceptions.md R200). -/
def spriteInBounds (s : State) (n : Nibble) : Prop := n = 0 ∨ s.index.toNat + n.toNat ≤ 4096

/-- Whether the draw turns a lit pixel off (spec/43_display.md R183). -/
def collides (s : State) (x y n : Nibble) : Prop :=
  ∃ row col, row < 32 ∧ col < 64 ∧ spriteBit s x y n row col = true ∧ s.disp.pixel row col = true

/-- The error an instruction meets, by the table of spec/60_exceptions.md R200. -/
def instrError (i : Instr) (s : State) : Option RunError :=
  match i with
  | .draw _ _ n => if 0 < n.toNat ∧ 4096 ≤ s.index.toNat + n.toNat - 1 then some .outOfBoundsAccess else none
  | .dump x => if 4096 ≤ s.index.toNat + x.toNat then some .outOfBoundsAccess else none
  | .fill x => if 4096 ≤ s.index.toNat + x.toNat then some .outOfBoundsAccess else none
  | .bcd _ =>
    if s.params.bcdMode = .full ∧ 4096 ≤ s.index.toNat + 2 then some .outOfBoundsAccess else none
  | .ret => if s.sp.val = 0 then some .stackUnderflow else none
  | .call _ => if s.sp.val = 16 then some .stackOverflow else none
  | _ => none

/-- The error a step of a running machine meets, in the order of spec/60_exceptions.md R205. -/
def stepError (s : State) : Option RunError :=
  if 4095 ≤ s.pc.toNat then some .outOfBoundsAccess
  else
    match decodeWord (wordAtPc s) with
    | none => some .invalidOpcode
    | some i => instrError i s

/-- The pc an instruction that meets no error leaves, by the table of spec/10_state.md R24. -/
def pcAfter (i : Instr) (s : State) : Word :=
  match i with
  | .jump nnn => BitVec.ofNat 16 nnn.toNat
  | .call nnn => BitVec.ofNat 16 nnn.toNat
  | .jumpR0 nnn => BitVec.ofNat 16 (nnn.toNat + (s.reg 0).toNat)
  | .ret => (s.stack[s.sp.val - 1]?).getD 0
  | .skipIfEqImm x nn => if s.reg x = nn then s.pc + 4 else s.pc + 2
  | .skipIfNeImm x nn => if s.reg x = nn then s.pc + 2 else s.pc + 4
  | .skipIfEqReg x y => if s.reg x = s.reg y then s.pc + 4 else s.pc + 2
  | .skipIfNeReg x y => if s.reg x = s.reg y then s.pc + 2 else s.pc + 4
  | .skipIfKey x => if (s.keys[(s.reg x).toNat % 16]?).getD false then s.pc + 4 else s.pc + 2
  | .skipIfNotKey x => if (s.keys[(s.reg x).toNat % 16]?).getD false then s.pc + 2 else s.pc + 4
  | .awaitKey _ =>
    if s.params.awaitKeyMode = .block ∧ ∀ k : Nibble, s.keyDown k = false then s.pc else s.pc + 2
  | _ => s.pc + 2

/-- The registers an instruction may write (spec/10_state.md R21, R22). -/
def mayWriteReg (i : Instr) (s : State) (r : Nibble) : Prop :=
  match i with
  | .setImm x _ => r = x
  | .addImm x _ => r = x
  | .setReg x _ => r = x
  | .bitOr x _ => r = x
  | .bitAnd x _ => r = x
  | .bitXor x _ => r = x
  | .addReg x _ => r = x ∨ r = 15
  | .sub x _ => r = x ∨ r = 15
  | .rshift x => r = x ∨ r = 15
  | .revsub x _ => r = x ∨ r = 15
  | .lshift x => r = x ∨ r = 15
  | .random x _ => r = x
  | .draw _ _ _ => r = 15
  | .getTimer x => r = x
  | .awaitKey x => r = x ∧ s.params.awaitKeyMode = .block
  | .fill x => r.toNat ≤ x.toNat ∧ s.params.fillMode = .load
  | _ => False

/-- The bytes an instruction may store to (spec/20_memory.md R56). -/
def mayWriteByte (i : Instr) (s : State) (a : Nat) : Prop :=
  match i with
  | .dump x => s.index.toNat ≤ a ∧ a ≤ s.index.toNat + x.toNat
  | .fill x => s.params.fillMode = .store ∧ s.index.toNat ≤ a ∧ a ≤ s.index.toNat + x.toNat
  | .bcd _ => s.params.bcdMode = .full ∧ s.index.toNat ≤ a ∧ a ≤ s.index.toNat + 2
  | _ => False

/-- The illegal words, by leading nibble, as the table of spec/30_encoding.md R79 lists them. -/
def illegalWord (w : Nat) : Prop :=
  (w / 4096 = 0 ∧ w ≠ 0x0000 ∧ w ≠ 0x00E0 ∧ w ≠ 0x00EE) ∨
  (w / 4096 = 5 ∧ 2 ≤ w % 16) ∨
  (w / 4096 = 8 ∧ w % 16 ∈ [0x8, 0x9, 0xA, 0xB, 0xC, 0xD, 0xF]) ∨
  (w / 4096 = 9 ∧ w % 16 ≠ 0) ∨
  (w / 4096 = 0xE ∧ w % 256 ∉ [0x9E, 0xA1]) ∨
  (w / 4096 = 0xF ∧ w % 256 ∉ [0x07, 0x0A, 0x15, 0x18, 0x1E, 0x29, 0x33, 0x55, 0x65])

/-- Whether an instruction is one of the two whose `Y` nibble is ignored (spec/30_encoding.md R76). -/
def isShift : Instr → Bool
  | .rshift _ => true
  | .lshift _ => true
  | _ => false

/-- An `addr` argument and its address (spec/30_encoding.md R91). -/
inductive AddrArg (labels : SymbolTable) : Argument → Nat → Prop where
  | literal (v : Addr12) : AddrArg labels (.literal v) v.toNat
  | label (name : String) (a : Word) (h : labels.lookup name = some a) (hr : a.toNat ≤ 4095) :
      AddrArg labels (.label name) a.toNat

/-- The rows of spec/30_encoding.md R92 but `data`: the mnemonic, the arguments that pass the checks, the word as a
number. -/
inductive EncodingRow (labels : SymbolTable) : InstrName → List Argument → Nat → Prop where
  | halt : EncodingRow labels .halt [] 0x0000
  | clearScreen : EncodingRow labels .clearScreen [] 0x00E0
  | ret : EncodingRow labels .ret [] 0x00EE
  | jump (g : Argument) (a : Nat) (h : AddrArg labels g a) : EncodingRow labels .jump [g] (0x1000 + a)
  | jumpR0 (g : Argument) (a : Nat) (h : AddrArg labels g a) :
      EncodingRow labels .jump [g, .register 0] (0xB000 + a)
  | call (g : Argument) (a : Nat) (h : AddrArg labels g a) : EncodingRow labels .call [g] (0x2000 + a)
  | setIndex (g : Argument) (a : Nat) (h : AddrArg labels g a) : EncodingRow labels .setIndex [g] (0xA000 + a)
  | skipIfEqImm (x : Nibble) (v : Addr12) (h : v.toNat ≤ 255) :
      EncodingRow labels .skipIfEq [.register x, .literal v] (0x3000 + x.toNat * 256 + v.toNat)
  | skipIfEqReg (x y : Nibble) :
      EncodingRow labels .skipIfEq [.register x, .register y] (0x5000 + x.toNat * 256 + y.toNat * 16)
  | skipIfNeImm (x : Nibble) (v : Addr12) (h : v.toNat ≤ 255) :
      EncodingRow labels .skipIfNe [.register x, .literal v] (0x4000 + x.toNat * 256 + v.toNat)
  | skipIfNeReg (x y : Nibble) :
      EncodingRow labels .skipIfNe [.register x, .register y] (0x9000 + x.toNat * 256 + y.toNat * 16)
  | togglePixel (x y : Nibble) :
      EncodingRow labels .togglePixel [.register x, .register y] (0x5001 + x.toNat * 256 + y.toNat * 16)
  | setImm (x : Nibble) (v : Addr12) (h : v.toNat ≤ 255) :
      EncodingRow labels .set [.register x, .literal v] (0x6000 + x.toNat * 256 + v.toNat)
  | setReg (x y : Nibble) :
      EncodingRow labels .set [.register x, .register y] (0x8000 + x.toNat * 256 + y.toNat * 16)
  | addImm (x : Nibble) (v : Addr12) (h : v.toNat ≤ 255) :
      EncodingRow labels .add [.register x, .literal v] (0x7000 + x.toNat * 256 + v.toNat)
  | addReg (x y : Nibble) :
      EncodingRow labels .add [.register x, .register y] (0x8004 + x.toNat * 256 + y.toNat * 16)
  | bitOr (x y : Nibble) :
      EncodingRow labels .bitOr [.register x, .register y] (0x8001 + x.toNat * 256 + y.toNat * 16)
  | bitAnd (x y : Nibble) :
      EncodingRow labels .bitAnd [.register x, .register y] (0x8002 + x.toNat * 256 + y.toNat * 16)
  | bitXor (x y : Nibble) :
      EncodingRow labels .bitXor [.register x, .register y] (0x8003 + x.toNat * 256 + y.toNat * 16)
  | sub (x y : Nibble) :
      EncodingRow labels .sub [.register x, .register y] (0x8005 + x.toNat * 256 + y.toNat * 16)
  | rshift (x : Nibble) : EncodingRow labels .rshift [.register x] (0x8006 + x.toNat * 256)
  | revsub (x y : Nibble) :
      EncodingRow labels .revsub [.register x, .register y] (0x8007 + x.toNat * 256 + y.toNat * 16)
  | lshift (x : Nibble) : EncodingRow labels .lshift [.register x] (0x800E + x.toNat * 256)
  | random (x : Nibble) (v : Addr12) (h : v.toNat ≤ 255) :
      EncodingRow labels .random [.register x, .literal v] (0xC000 + x.toNat * 256 + v.toNat)
  | draw (x y : Nibble) (v : Addr12) (h : v.toNat ≤ 15) :
      EncodingRow labels .draw [.register x, .register y, .literal v]
        (0xD000 + x.toNat * 256 + y.toNat * 16 + v.toNat)
  | skipIfKey (x : Nibble) : EncodingRow labels .skipIfKey [.register x] (0xE09E + x.toNat * 256)
  | skipIfNotKey (x : Nibble) : EncodingRow labels .skipIfNotKey [.register x] (0xE0A1 + x.toNat * 256)
  | getTimer (x : Nibble) : EncodingRow labels .getTimer [.register x] (0xF007 + x.toNat * 256)
  | awaitKey (x : Nibble) : EncodingRow labels .awaitKey [.register x] (0xF00A + x.toNat * 256)
  | setTimer (x : Nibble) : EncodingRow labels .setTimer [.register x] (0xF015 + x.toNat * 256)
  | setSound (x : Nibble) : EncodingRow labels .setSound [.register x] (0xF018 + x.toNat * 256)
  | addIndex (x : Nibble) : EncodingRow labels .addIndex [.register x] (0xF01E + x.toNat * 256)
  | setSprite (x : Nibble) : EncodingRow labels .setSprite [.register x] (0xF029 + x.toNat * 256)
  | bcd (x : Nibble) : EncodingRow labels .bcd [.register x] (0xF033 + x.toNat * 256)
  | dump (x : Nibble) : EncodingRow labels .dump [.register x] (0xF055 + x.toNat * 256)
  | fill (x : Nibble) : EncodingRow labels .fill [.register x] (0xF065 + x.toNat * 256)

/-- How far pass 1 moves its cursor for a statement (spec/30_encoding.md R101). -/
def sizeOf : Statement → Nat
  | .labelDef _ _ => 0
  | .op m _ argTokens => statementSize m argTokens
  | .stray _ => 0

end Sys2Proof.Claims

open Sys2Proof Sys2Proof.Machine Sys2Proof.Claims

/-- Decoding the two bytes of any well-formed instruction gives that instruction back. For every well-formed instruction
i and any bytes after it, decoding encode i gives i, with every operand at every value its field admits, and leaves
the following bytes. (Basis: derived; R95, 30_encoding.md section 5.) -/
def Obligations.DecodeEncodeRoundTrip : Prop :=
  ∀ (i : Instr) (rest : List Byte), i.wellFormed = true →
    decodeBytes (encodeBytes i ++ rest) = .ok (i, rest)

/-- Re-encoding a decoded word gives the word, but for the ignored nibble of the shifts. For every legal word w that
decodes to i: when i is rshift or lshift, encode i is w with its Y nibble cleared; otherwise encode i is w. That the
shifts ignore Y and emit 0 is the spec's decision D14, D27 (log entries 20, 31). (Basis: derived; R95.) -/
def Obligations.EncodeDecodeReturnsWord : Prop :=
  ∀ (w : Word) (i : Instr), decodeWord w = some i →
    encode i = if isShift i then w &&& 0xFF0F else w

/-- A word selects a row of the opcode map exactly when w & mask = match, and no two rows overlap. For every word w: if
it decodes to i then w & mask(i) = match(i); if w & mask(i) = match(i) for some instruction i then w decodes to an
instruction of the same row; two instructions whose rows both match w have the same mnemonic. The strictness is the
spec's decision D14 (log entry 20). (Basis: derived; R78.) -/
def Obligations.DecoderMatchesTheOpcodeMap : Prop :=
  ∀ w : Word,
    (∀ i, decodeWord w = some i → w &&& i.mask = i.pattern) ∧
    (∀ i : Instr, w &&& i.mask = i.pattern → ∃ j, decodeWord w = some j ∧ j.mnemonic = i.mnemonic) ∧
    (∀ i j : Instr, w &&& i.mask = i.pattern → w &&& j.mask = j.pattern → i.mnemonic = j.mnemonic)

/-- The words the decoder rejects are exactly those of the illegal-word table. For every word w, decode w is Invalid
exactly when w stands in the table of illegal words by leading nibble. The strictness is the spec's decision D14
(log entry 20). The table's counts are not stated. (Basis: derived; R79, 92_eei_decisions.md D14.) -/
def Obligations.IllegalWordsAreTheTables : Prop :=
  ∀ w : Word, decodeWord w = none ↔ illegalWord w.toNat

/-- Words the spec writes out decode to the instructions it says they are. 00E0, 1ABC, 3A7F, 5121, 8AB3, 8AB6, 9AB0,
D12F, EFA1, F065 decode as section 2.1 of the test vectors says, and 5122, 8AB8, E09F, F075 are invalid. That the
four words are invalid and that 8AB6 ignores its Y nibble is the spec's decision D14 (log entry 20). (Basis:
derived; 95_test_vectors.md section 2.1, 92_eei_decisions.md D14.) -/
def Obligations.SpecWordsDecode : Prop :=
  decodeWord 0x00E0 = some .clearScreen ∧ decodeWord 0x1ABC = some (.jump 0xABC) ∧
    decodeWord 0x3A7F = some (.skipIfEqImm 10 0x7F) ∧ decodeWord 0x5121 = some (.togglePixel 1 2) ∧
    decodeWord 0x8AB3 = some (.bitXor 10 11) ∧ decodeWord 0x8AB6 = some (.rshift 10) ∧
    decodeWord 0x9AB0 = some (.skipIfNeReg 10 11) ∧ decodeWord 0xD12F = some (.draw 1 2 15) ∧
    decodeWord 0xEFA1 = some (.skipIfNotKey 15) ∧ decodeWord 0xF065 = some (.fill 0) ∧
    decodeWord 0x5122 = none ∧ decodeWord 0x8AB8 = none ∧ decodeWord 0xE09F = none ∧ decodeWord 0xF075 = none

/-- A step executes the instruction the bytes at the pc decode to. In a running machine whose pc is at most 4094, when
the two bytes at pc and pc + 1 decode to a well-formed instruction i, step is exec of i at that state; nothing is
added around it. (Basis: derived; R73, 30_encoding.md section 2.) -/
def Obligations.StepRunsDecodedInstruction : Prop :=
  ∀ (s : State) (i : Instr), s.run = .running → s.pc.toNat ≤ 4094 → i.wellFormed = true →
    decodeBytes [s.mem.read s.pc.toNat, s.mem.read (s.pc.toNat + 1)] = .ok (i, []) → step s = exec i s

/-- A fetch at pc 4095 or above raises OutOfBoundsAccess and changes nothing else. In a running machine with pc >= 4095,
step halts with OutOfBoundsAccess and every other piece of state unchanged. The bound 4095 is the spec's decision D6
(log entry 13). That nothing else changes, the pc among it, is its decision D9 (log entry 15). (Basis: derived;
30_encoding.md section 2, 92_eei_decisions.md D6, D9.) -/
def Obligations.FetchPastMemoryFails : Prop :=
  ∀ s : State, s.run = .running → 4095 ≤ s.pc.toNat → step s = errorOutcome .outOfBoundsAccess s

/-- An illegal fetched word raises InvalidOpcode; any other word is executed as what it spells. In a running machine
whose fetch succeeds, an illegal word at the pc halts it with InvalidOpcode and changes nothing else; a word that
decodes is executed, whatever placed its bytes. That nothing else changes, and which words are illegal, are the
spec's decisions D9, D14 (log entries 15, 20). (Basis: derived; R203, 92_eei_decisions.md D9, D14.) -/
def Obligations.IllegalWordRaisesInvalidOpcode : Prop :=
  ∀ s : State, s.run = .running → s.pc.toNat ≤ 4094 →
    (decodeWord (wordAtPc s) = none → step s = errorOutcome .invalidOpcode s) ∧
    (∀ i, decodeWord (wordAtPc s) = some i → step s = exec i s)

/-- A step of a halted machine changes nothing. When run is Halted, step answers the same state. The no-op is the spec's
decision D16 (log entry 8). (Basis: derived; 60_exceptions.md section 2, 92_eei_decisions.md D16.) -/
def Obligations.HaltedStepChangesNothing : Prop :=
  ∀ s : State, s.run = .halted → step s = .next s

/-- A step is defined in every state: it never faults and is never refused. For every state, reached or not, step
answers a next state. That it never faults rests on the model's taking the four runtime errors as next states, with
an empty type of faults (log entry 8, DEDUCED: R204 describes their entry and advises treating the halted state as a
fault); State.endedInFault tells such ends apart. (Basis: derived; R73, 60_exceptions.md section 2 (the error entry
of R204), 92_eei_decisions.md D16.) -/
def Obligations.EveryStepAnswersNext : Prop :=
  ∀ s : State, ∃ t, step s = .next t

/-- A running step meets exactly the error the table of runtime errors gives, and then changes only run and err. In a
running machine with err = None, the err after a step is the one the table of R200 gives in the order fetch, decode,
execute (or None); when it is an error, the step changed run and err and nothing else. Precision and order are the
spec's decisions D9, D29 (log entries 15, 8). The numeric codes are not stated. The fetch error at pc 4095 is its
decision D6 (log entry 13) and the set of illegal words its decision D14 (log entry 20). (Basis: derived; R200,
92_eei_decisions.md D6, D9, D14, D29.) -/
def Obligations.StepErrorTable : Prop :=
  ∀ s : State, s.run = .running → s.err = none →
    ∃ t, step s = .next t ∧ t.err = stepError s ∧
      (stepError s ≠ none → t = { s with run := .halted, err := stepError s })

/-- No host operation leaves Halted or changes the recorded error. For every step, tick or key write applied to a halted
machine: run stays Halted, err, pc, registers, index, stack, display and memory stay as they are. The no-op and the
ticks are the spec's decisions D16, D22 (log entries 8, 24). (Basis: derived; 60_exceptions.md section 2,
92_eei_decisions.md D16, D22.) -/
def Obligations.HaltedIsTerminal : Prop :=
  ∀ (s t : State) (e : HostEvent), s.run = .halted → e.apply s = .next t →
    t = { s with dt := t.dt, st := t.st, keys := t.keys }

/-- Every instruction leaves the pc the table of pc updates gives; an error leaves it unchanged. For every instruction
and state: exec answers a next state; when the instruction meets no error its pc is the one of the table (pc + 2, a
taken skip pc + 4, a jump's or call's target, the popped entry, unchanged for a waiting await-key); when it meets
one the pc is unchanged. The skip distance, the pc after halt, the pc after an error, the pc of a waiting await-key
and the pc a call pushes are the spec's decisions D26, D15, D9, D18, D4 (log entries 39, 9, 15, 21, 10); the sums
are 16-bit sums also where no step reaches (log entry 11). (Basis: derived; 10_state.md section 3,
92_eei_decisions.md D4, D9, D15, D18, D26.) -/
def Obligations.PcAfterEachInstruction : Prop :=
  ∀ (i : Instr) (s : State), ∃ t, exec i s = .next t ∧
      (instrError i s = none → t.pc = pcAfter i s) ∧ (instrError i s ≠ none → t.pc = s.pc)

/-- jump goes to NNN, jump.r0 to NNN + x[0] unreduced; nothing else changes. For every state: jump sets the pc to NNN;
jump.r0 sets it to the exact sum NNN + x[0]; every other piece of state is unchanged. The words that the spec gives
as its encoding decode to it. (Basis: stated; R124, R125.) -/
def Obligations.JumpTargets : Prop :=
  ∀ (nnn : Addr12) (s : State),
    Spells (0x1000 + nnn.toNat) (.jump nnn) ∧ Spells (0xB000 + nnn.toNat) (.jumpR0 nnn) ∧
    (∃ t, exec (.jump nnn) s = .next t ∧ t = { s with pc := t.pc } ∧ t.pc.toNat = nnn.toNat) ∧
    (∃ t, exec (.jumpR0 nnn) s = .next t ∧ t = { s with pc := t.pc } ∧
      t.pc.toNat = nnn.toNat + (s.reg 0).toNat)

/-- The four comparing skips set pc + 4 when their condition holds, else pc + 2; nothing else changes. For every state:
skip-if-eq and skip-if-ne, against a literal or a register, compare the unsigned 8-bit values and set the pc to pc +
4 or pc + 2; every other piece of state is unchanged. The distance of a taken skip is the spec's decision D26 (log
entry 39). The words that the spec gives as its encoding decode to it. (Basis: derived; R126, R127, R128, R129,
92_eei_decisions.md D26.) -/
def Obligations.SkipsOnComparison : Prop :=
  ∀ (x y : Nibble) (nn : Byte) (s : State),
    Spells (0x3000 + x.toNat * 256 + nn.toNat) (.skipIfEqImm x nn) ∧ Spells (0x4000 + x.toNat * 256 + nn.toNat) (.skipIfNeImm x nn) ∧
    Spells (0x5000 + x.toNat * 256 + y.toNat * 16) (.skipIfEqReg x y) ∧ Spells (0x9000 + x.toNat * 256 + y.toNat * 16) (.skipIfNeReg x y) ∧
    exec (.skipIfEqImm x nn) s = .next { s with pc := if (s.reg x).toNat = nn.toNat then s.pc + 4 else s.pc + 2 } ∧
    exec (.skipIfNeImm x nn) s = .next { s with pc := if (s.reg x).toNat ≠ nn.toNat then s.pc + 4 else s.pc + 2 } ∧
    exec (.skipIfEqReg x y) s = .next { s with pc := if (s.reg x).toNat = (s.reg y).toNat then s.pc + 4 else s.pc + 2 } ∧
    exec (.skipIfNeReg x y) s = .next { s with pc := if (s.reg x).toNat ≠ (s.reg y).toNat then s.pc + 4 else s.pc + 2 }

/-- return pops the top entry into the pc, or raises StackUnderflow. With k + 1 entries in use, return sets sp to k and
the pc to stack[k], and changes nothing else (the entry's bits stay); with none it halts with StackUnderflow and
changes nothing else. The stack's layout and the precision of the error are the spec's decisions D25, D9 (log
entries 30, 15). The words that the spec gives as its encoding decode to it. (Basis: derived; R122,
92_eei_decisions.md D9, D25.) -/
def Obligations.ReturnPopsTheStack : Prop :=
  ∀ s : State, Spells 0x00EE .ret ∧
    (∀ (k : Nat) (h : k < 16), s.sp.val = k + 1 →
      ∃ t, exec .ret s = .next t ∧ t.sp.val = k ∧ t = { s with sp := t.sp, pc := s.stack[k]'h }) ∧
    (s.sp.val = 0 → exec .ret s = errorOutcome .stackUnderflow s)

/-- call pushes pc + LINK_OFFSET and jumps, or raises StackOverflow. With k < 16 entries in use, call writes pc +
LINK_OFFSET to stack[k], leaves every other entry, sets sp to k + 1 and the pc to NNN, and changes nothing else;
with 16 it halts with StackOverflow and changes nothing else. What is pushed is the spec's decision D4 (log entry
10). That a failing call changes nothing else is its decision D9 (log entry 15), and that the push writes stack[sp]
and sp counts the live entries its decision D25 (log entry 30). (Basis: derived; 40_control.md R123 (its push is the
spec's decision), 92_eei_decisions.md D4, D9, D25.) -/
def Obligations.CallPushesTheLink : Prop :=
  ∀ (nnn : Addr12) (s : State),
    (∀ (k : Nat) (h : k < 16), s.sp.val = k →
      ∃ t, exec (.call nnn) s = .next t ∧ t.pc.toNat = nnn.toNat ∧ t.sp.val = k + 1 ∧
        t.stack[k]'h = s.pc + linkValue s.params.linkOffset ∧
        (∀ (j : Nat) (hj : j < 16), j ≠ k → t.stack[j]'hj = s.stack[j]'hj) ∧
        t = { s with pc := t.pc, sp := t.sp, stack := t.stack }) ∧
    (s.sp.val = 16 → exec (.call nnn) s = errorOutcome .stackOverflow s)

/-- A return right after a call resumes at the call's link address with the stack depth restored. With fewer than 16
entries in use, call then return answers a state that differs from the first only in the pc, which is pc +
LINK_OFFSET, and in the one stack entry at sp, which is dead; every other entry is unchanged. What call pushes is
the spec's decision D4 (log entry 10). Which entries are live and which dead is the layout of its decision D25 (log
entry 30). (Basis: derived; 40_control.md section on R122 and R123, 92_eei_decisions.md D4, D25.) -/
def Obligations.CallThenReturnComesBack : Prop :=
  ∀ (nnn : Addr12) (s : State), s.sp.val < 16 →
    ∃ t u, exec (.call nnn) s = .next t ∧ exec .ret t = .next u ∧
      u = { s with pc := s.pc + linkValue s.params.linkOffset, stack := u.stack } ∧
      ∀ (j : Nat) (hj : j < 16), j ≠ s.sp.val → u.stack[j]'hj = s.stack[j]'hj

/-- halt sets run to Halted with no error and the pc past itself; nothing else changes. For every state, halt answers
the state with run = Halted, err = None and pc + 2. The pc's advance is the spec's decision D15 (log entry 9).
(Basis: derived; 40_control.md R121 (its pc is the spec's decision), 92_eei_decisions.md D15.) -/
def Obligations.HaltEndsTheRun : Prop :=
  ∀ s : State, ∃ t, exec .halt s = .next t ∧ t.endedWell ∧
      t = { s with run := t.run, err := t.err, pc := s.pc + 2 }

/-- set and the bitwise instructions write their result to x[X] and no flag. For every state and operands, X = 15 and X
= Y among them: set.imm, set.reg, or, and, xor write NN, x[Y], or the bitwise combination of the old x[X] and x[Y]
to x[X]; every other register is unchanged, the pc is pc + 2, nothing else changes. The words that the spec gives as
its encoding decode to it. (Basis: stated; R141, R143, R144, R145, R146.) -/
def Obligations.MovesAndLogic : Prop :=
  ∀ (x y : Nibble) (nn : Byte) (s : State),
    Spells (0x6000 + x.toNat * 256 + nn.toNat) (.setImm x nn) ∧ Spells (0x8000 + x.toNat * 256 + y.toNat * 16) (.setReg x y) ∧
    Spells (0x8001 + x.toNat * 256 + y.toNat * 16) (.bitOr x y) ∧ Spells (0x8002 + x.toNat * 256 + y.toNat * 16) (.bitAnd x y) ∧
    Spells (0x8003 + x.toNat * 256 + y.toNat * 16) (.bitXor x y) ∧
    (∃ t, exec (.setImm x nn) s = .next t ∧ RegsAndPc s t ∧ WritesOne s t x nn) ∧
    (∃ t, exec (.setReg x y) s = .next t ∧ RegsAndPc s t ∧ WritesOne s t x (s.reg y)) ∧
    (∃ t, exec (.bitOr x y) s = .next t ∧ RegsAndPc s t ∧ WritesOne s t x (s.reg x ||| s.reg y)) ∧
    (∃ t, exec (.bitAnd x y) s = .next t ∧ RegsAndPc s t ∧ WritesOne s t x (s.reg x &&& s.reg y)) ∧
    (∃ t, exec (.bitXor x y) s = .next t ∧ RegsAndPc s t ∧ WritesOne s t x (s.reg x ^^^ s.reg y))

/-- add.imm adds modulo 256 and writes no flag. For every state and operands, X = 15 among them: add.imm leaves (x[X] +
NN) mod 256 in x[X] and every other register unchanged, VF among them unless X = 15; the pc is pc + 2, nothing else
changes. The words that the spec gives as its encoding decode to it. (Basis: stated; R142.) -/
def Obligations.AddImmediateWraps : Prop :=
  ∀ (x : Nibble) (nn : Byte) (s : State), Spells (0x7000 + x.toNat * 256 + nn.toNat) (.addImm x nn) ∧
    ∃ t, exec (.addImm x nn) s = .next t ∧ RegsAndPc s t ∧
      WritesOne s t x (BitVec.ofNat 8 (((s.reg x).toNat + nn.toNat) % 256))

/-- add.reg adds modulo 256 and sets VF to the carry; at X = 15 the carry stays. For every state and operands: add.reg
writes (a + b) mod 256 to x[X] and then 1 to x[15] if a + b > 255, else 0, so x[15] ends as the carry when X = 15;
every other register is unchanged, the pc is pc + 2, nothing else changes. The order of the two writes, seen at X =
15 only, is the spec's decision D5 (log entry 12). The words that the spec gives as its encoding decode to it.
(Basis: derived; R147, 92_eei_decisions.md D5.) -/
def Obligations.AddRegisterCarry : Prop :=
  ∀ (x y : Nibble) (s : State), Spells (0x8004 + x.toNat * 256 + y.toNat * 16) (.addReg x y) ∧
    ∃ t, exec (.addReg x y) s = .next t ∧ RegsAndPc s t ∧
      WritesResultThenFlag s t x (BitVec.ofNat 8 (((s.reg x).toNat + (s.reg y).toNat) % 256))
        (bit ((s.reg x).toNat + (s.reg y).toNat > 255))

/-- sub subtracts modulo 256 and sets VF when there is no borrow; at X = 15 the flag stays. For every state and
operands: sub writes (a - b) mod 256 to x[X] and then 1 to x[15] if a >= b, else 0; every other register is
unchanged, the pc is pc + 2, nothing else changes. The order of the two writes, seen at X = 15 only, is the spec's
decision D5 (log entry 12). The words that the spec gives as its encoding decode to it. (Basis: derived; R148,
92_eei_decisions.md D5.) -/
def Obligations.SubtractBorrow : Prop :=
  ∀ (x y : Nibble) (s : State), Spells (0x8005 + x.toNat * 256 + y.toNat * 16) (.sub x y) ∧
    ∃ t, exec (.sub x y) s = .next t ∧ RegsAndPc s t ∧
      WritesResultThenFlag s t x (BitVec.ofNat 8 (((s.reg x).toNat + 256 - (s.reg y).toNat) % 256))
        (bit ((s.reg x).toNat ≥ (s.reg y).toNat))

/-- revsub writes x[Y] - x[X] modulo 256 and sets VF only when x[Y] is strictly greater. For every state and operands:
revsub writes (b - a) mod 256 to x[X] and then 1 to x[15] if b > a, else 0, equal operands giving 0; every other
register is unchanged, the pc is pc + 2, nothing else changes. The order of the two writes, seen at X = 15 only, is
the spec's decision D5 (log entry 12). The words that the spec gives as its encoding decode to it. (Basis: derived;
R150, 92_eei_decisions.md D5.) -/
def Obligations.ReverseSubtractStrict : Prop :=
  ∀ (x y : Nibble) (s : State), Spells (0x8007 + x.toNat * 256 + y.toNat * 16) (.revsub x y) ∧
    ∃ t, exec (.revsub x y) s = .next t ∧ RegsAndPc s t ∧
      WritesResultThenFlag s t x (BitVec.ofNat 8 (((s.reg y).toNat + 256 - (s.reg x).toNat) % 256))
        (bit ((s.reg y).toNat > (s.reg x).toNat))

/-- rshift and lshift shift x[X] by one; VF is the bit shifted out unless X = 15. For every state and operand: rshift
writes bit 0 of a to x[15] and then a div 2 to x[X]; lshift writes bit 7 of a to x[15] and then (2a) mod 256 to
x[X], so the shifted value stays when X = 15; every other register is unchanged, the pc is pc + 2, nothing else
changes. The order of the two writes, seen at X = 15 only, is the spec's decision D5 (log entry 12); that Y is
ignored is D14 (log entry 20). The words that the spec gives as its encoding decode to it. (Basis: derived; R149,
R151, 92_eei_decisions.md D5, D14.) -/
def Obligations.ShiftsByOne : Prop :=
  ∀ (x : Nibble) (s : State),
    (∀ y : Nibble, Spells (0x8006 + x.toNat * 256 + y.toNat * 16) (.rshift x) ∧ Spells (0x800E + x.toNat * 256 + y.toNat * 16) (.lshift x)) ∧
    (∃ t, exec (.rshift x) s = .next t ∧ RegsAndPc s t ∧
      WritesFlagThenResult s t x (BitVec.ofNat 8 ((s.reg x).toNat / 2)) (bit ((s.reg x).toNat % 2 = 1))) ∧
    (∃ t, exec (.lshift x) s = .next t ∧ RegsAndPc s t ∧
      WritesFlagThenResult s t x (BitVec.ofNat 8 ((s.reg x).toNat * 2 % 256)) (bit ((s.reg x).toNat ≥ 128)))

/-- random writes a fresh byte masked with NN, whatever the draw. For every state and operands, and whatever the free
byte is: random writes the next draw masked with NN to x[X], counts the draw, leaves every other register, sets pc +
2 and changes nothing else; the result has no bit that NN lacks. The byte is a free value and the count of draws the
model's own field (log entry 4); that the draw is free is the spec's decision D21. The words that the spec gives as
its encoding decode to it. (Basis: derived; R152, 92_eei_decisions.md D21.) -/
def Obligations.RandomIsMasked : Prop :=
  ∀ (x : Nibble) (nn : Byte) (s : State), Spells (0xC000 + x.toNat * 256 + nn.toNat) (.random x nn) ∧
    ∃ t, exec (.random x nn) s = .next t ∧ t = { s with x := t.x, pc := s.pc + 2, draws := s.draws + 1 } ∧
      WritesOne s t x (Config.randByte s.draws &&& nn) ∧ t.reg x &&& ~~~nn = 0

/-- set-index puts NNN in I, set-sprite the address of a digit's sprite. For every state: set-index leaves NNN in I;
set-sprite leaves 5 times the low nibble of x[X] in I, whatever the memory holds; the pc is pc + 2, nothing else
changes. The words that the spec gives as its encoding decode to it. (Basis: stated; R161, R163.) -/
def Obligations.IndexIsSet : Prop :=
  ∀ (nnn : Addr12) (x : Nibble) (s : State),
    Spells (0xA000 + nnn.toNat) (.setIndex nnn) ∧ Spells (0xF029 + x.toNat * 256) (.setSprite x) ∧
    (∃ t, exec (.setIndex nnn) s = .next t ∧ t = { s with index := t.index, pc := s.pc + 2 } ∧
      t.index.toNat = nnn.toNat) ∧
    (∃ t, exec (.setSprite x) s = .next t ∧ t = { s with index := t.index, pc := s.pc + 2 } ∧
      t.index.toNat = (s.reg x).toNat % 16 * 5)

/-- add-index adds modulo 65536, writes no flag and raises nothing. For every state: add-index leaves (I + x[X]) mod
65536 in I; no register, VF among them, changes; the pc is pc + 2, nothing else changes. The wrap and the late check
are the spec's decision D8 (log entry 14). (Basis: derived; 42_index_memory.md R162 (its wrap is the spec's
decision), 92_eei_decisions.md D8.) -/
def Obligations.AddIndexWraps : Prop :=
  ∀ (x : Nibble) (s : State),
    ∃ t, exec (.addIndex x) s = .next t ∧ t = { s with index := t.index, pc := s.pc + 2 } ∧
      t.index.toNat = (s.index.toNat + (s.reg x).toNat) % 65536

/-- dump stores x[0..X] from I up, or raises OutOfBoundsAccess and stores nothing. When I + X < 4096, dump stores x[k]
at I + k for every k from 0 to X, leaves every other byte and every other piece of state but the pc, which is pc +
2; when I + X >= 4096 it halts with OutOfBoundsAccess and changes nothing else. That a failing dump stores nothing
is the spec's decision D9 (log entry 15). The words that the spec gives as its encoding decode to it. (Basis:
derived; R164, 92_eei_decisions.md D9.) -/
def Obligations.DumpStoresRegisters : Prop :=
  ∀ (x : Nibble) (s : State), Spells (0xF055 + x.toNat * 256) (.dump x) ∧
    (s.index.toNat + x.toNat < 4096 →
      ∃ t, exec (.dump x) s = .next t ∧ MemAndPc s t ∧
        (∀ k : Nibble, k.toNat ≤ x.toNat → t.mem.read (s.dataBase + k.toNat) = s.reg k) ∧
        (∀ a, a < s.dataBase ∨ s.dataBase + x.toNat < a → t.mem.read a = s.mem.read a)) ∧
    (4096 ≤ s.index.toNat + x.toNat → exec (.dump x) s = errorOutcome .outOfBoundsAccess s)

/-- fill loads x[0..X] from I up, or stores them as dump does, by FILL_MODE. When I + X < 4096: in load mode fill leaves
mem[I + k] in x[k] for every k from 0 to X, every other register unchanged and nothing else changed but pc + 2; in
store mode it answers what dump answers. When I + X >= 4096 it halts with OutOfBoundsAccess in both modes and
changes nothing else. The mode is the spec's decision D20 (log entry 23). That a failing fill changes nothing else
is its decision D9 (log entry 15). (Basis: derived; 42_index_memory.md R165 (FILL_MODE is the spec's decision),
92_eei_decisions.md D9, D20.) -/
def Obligations.FillByMode : Prop :=
  ∀ (x : Nibble) (s : State),
    (s.index.toNat + x.toNat < 4096 → s.params.fillMode = .load →
      ∃ t, exec (.fill x) s = .next t ∧ RegsAndPc s t ∧
        ∀ r : Nibble, t.reg r = if r.toNat ≤ x.toNat then s.mem.read (s.dataBase + r.toNat) else s.reg r) ∧
    (s.index.toNat + x.toNat < 4096 → s.params.fillMode = .store →
      ∃ t, exec (.fill x) s = .next t ∧ exec (.dump x) s = .next t) ∧
    (4096 ≤ s.index.toNat + x.toNat → exec (.fill x) s = errorOutcome .outOfBoundsAccess s)

/-- bcd stores the hundreds, tens and ones of x[X] from I up, or only advances, by BCD_MODE. In full mode with I + 2 <
4096, bcd stores the hundreds digit at I, the tens at I + 1, the ones at I + 2, leaves every other byte and
everything else but pc + 2; with I + 2 >= 4096 it halts with OutOfBoundsAccess and changes nothing else. In stub
mode it only sets pc + 2, whatever I is. The digit order is general knowledge (log entry 22), the mode the spec's
decision D19. That a failing bcd changes nothing else is its decision D9 (log entry 15). (Basis: derived;
42_index_memory.md R166 (BCD_MODE and the digit order), 92_eei_decisions.md D9, D19, 93_implementation_defined.md
K4.) -/
def Obligations.BcdDigits : Prop :=
  ∀ (x : Nibble) (s : State),
    (s.params.bcdMode = .full → s.index.toNat + 2 < 4096 →
      ∃ t, exec (.bcd x) s = .next t ∧ MemAndPc s t ∧
        (t.mem.read s.dataBase).toNat = (s.reg x).toNat / 100 ∧
        (t.mem.read (s.dataBase + 1)).toNat = (s.reg x).toNat / 10 % 10 ∧
        (t.mem.read (s.dataBase + 2)).toNat = (s.reg x).toNat % 10 ∧
        (∀ a, a < s.dataBase ∨ s.dataBase + 2 < a → t.mem.read a = s.mem.read a)) ∧
    (s.params.bcdMode = .full → 4096 ≤ s.index.toNat + 2 →
      exec (.bcd x) s = errorOutcome .outOfBoundsAccess s) ∧
    (s.params.bcdMode = .stub → exec (.bcd x) s = .next { s with pc := s.pc + 2 })

/-- A load-mode fill after a dump of the same range brings the dumped registers back. When I + X < 4096 and FILL_MODE is
load: after dump, whatever the registers then hold, fill of the same range leaves in x[0..X] the values dumped. The
mode is the spec's decision D20 (log entry 23). (Basis: derived; R164, 42_index_memory.md R165.) -/
def Obligations.DumpThenFillRestores : Prop :=
  ∀ (x : Nibble) (s : State) (x' : Vector Byte 16), s.index.toNat + x.toNat < 4096 → s.params.fillMode = .load →
    ∃ t u, exec (.dump x) s = .next t ∧ exec (.fill x) { t with x := x' } = .next u ∧
      ∀ r : Nibble, r.toNat ≤ x.toNat → u.reg r = s.reg r

/-- A dump over the next instruction is what the next step executes. In a running machine, when dump of at least two
registers stores from pc + 2 up inside the memory, the next step executes the word whose bytes are x[0] and x[1], or
raises InvalidOpcode if that word is illegal. The immediate visibility is the spec's decision D31 (log entry 25).
Which words are illegal, and that the error changes nothing else, are its decisions D14, D9 (log entries 20, 15).
(Basis: derived; 20_memory.md section 4, 92_eei_decisions.md D9, D14, D31.) -/
def Obligations.StoreSeenByTheNextFetch : Prop :=
  ∀ (x : Nibble) (s : State), s.run = .running → 1 ≤ x.toNat → s.index.toNat = s.pc.toNat + 2 →
    s.index.toNat + x.toNat < 4096 →
    ∃ t, exec (.dump x) s = .next t ∧
      step t = match decodeWord (wordOfBytes (s.reg 0) (s.reg 1)) with
        | some i => exec i t
        | none => errorOutcome .invalidOpcode t

/-- clear-screen makes every pixel false and changes nothing else. For every state, clear-screen leaves every pixel
false, VF and all registers unchanged, sets pc + 2 and changes nothing else. The words that the spec gives as its
encoding decode to it. (Basis: stated; R181.) -/
def Obligations.ClearScreenBlanks : Prop :=
  ∀ s : State, Spells 0x00E0 .clearScreen ∧ ∃ t, exec .clearScreen s = .next t ∧ t = { s with disp := t.disp, pc := s.pc + 2 } ∧
      ∀ (row col : Nat) (hr : row < 32) (hc : col < 64), (t.disp[row]'hr)[col]'hc = false

/-- toggle-pixel inverts the pixel at (x[X], x[Y]) if it exists, writes no flag and changes nothing else. For every
state: the pixel in column x[X], row x[Y] is inverted when x[X] < 64 and x[Y] < 32, every other pixel stays, no
register changes, the pc is pc + 2, nothing else changes. Off-screen positions are skipped by the spec's decision
D13 (log entry 19). (Basis: derived; 43_display.md R182 (clipping is the spec's decision), 92_eei_decisions.md D13.) -/
def Obligations.TogglePixelClips : Prop :=
  ∀ (x y : Nibble) (s : State),
    ∃ t, exec (.togglePixel x y) s = .next t ∧ t = { s with disp := t.disp, pc := s.pc + 2 } ∧
      ∀ (row col : Nat) (hr : row < 32) (hc : col < 64), (t.disp[row]'hr)[col]'hc =
        if row = (s.reg y).toNat ∧ col = (s.reg x).toNat then !((s.disp[row]'hr)[col]'hc) else (s.disp[row]'hr)[col]'hc

/-- draw inverts exactly the on-screen pixels under a 1 bit of the sprite and sets VF to the collision. When N = 0 or I
+ N <= 4096: after draw each on-screen pixel is the old one exclusive-or the sprite's bit over it (coordinates
unreduced, bit 7 leftmost, nothing wraps); VF is 1 if a lit pixel was turned off, else 0; every other register, the
memory, I and all else is unchanged but pc + 2. Otherwise it halts with OutOfBoundsAccess and changes nothing else.
Decisions D10, D11, D12 and general knowledge K2, K3 (log entries 16, 17, 18). That a failing draw changes nothing
else is the spec's decision D9 (log entry 15). (Basis: derived; 43_display.md R183, R184 (coordinates, VF and bit
order are decisions), 92_eei_decisions.md D9, D10, D11, D12.) -/
def Obligations.DrawXorsTheSprite : Prop :=
  ∀ (x y n : Nibble) (s : State),
    (spriteInBounds s n →
      ∃ t, exec (.draw x y n) s = .next t ∧ t = { s with x := t.x, disp := t.disp, pc := s.pc + 2 } ∧
        (∀ row col, row < 32 → col < 64 →
          t.disp.pixel row col = (s.disp.pixel row col ^^ spriteBit s x y n row col)) ∧
        (∀ r, r ≠ 15 → t.reg r = s.reg r) ∧
        (collides s x y n → t.reg 15 = 1) ∧ (¬ collides s x y n → t.reg 15 = 0)) ∧
    (¬ spriteInBounds s n → exec (.draw x y n) s = errorOutcome .outOfBoundsAccess s)

/-- Two identical draws in a row leave the display as it was. When the sprite is in bounds and neither coordinate
register is VF: draw then draw answers a state with the first display; the second draw sets VF to 1 exactly when the
first lit a pixel. Coordinates and VF are the spec's decisions D10, D11 (log entries 16, 18). (Basis: derived;
43_display.md R183, 95_test_vectors.md S6.) -/
def Obligations.DrawTwiceRestoresTheDisplay : Prop :=
  ∀ (x y n : Nibble) (s : State), x ≠ 15 → y ≠ 15 → spriteInBounds s n →
    ∃ t u, exec (.draw x y n) s = .next t ∧ exec (.draw x y n) t = .next u ∧ u.disp = s.disp ∧
      (u.reg 15 = 1 ↔ ∃ row col, row < 32 ∧ col < 64 ∧ s.disp.pixel row col = false ∧ t.disp.pixel row col = true)

/-- The key skips test the key named by the low nibble of x[X]. For every state: skip-if-key sets pc + 4 when key x[X]
mod 16 is pressed, else pc + 2; skip-if-not-key the other way round; nothing else changes. The distance of a taken
skip is the spec's decision D26 (log entry 39). The words that the spec gives as its encoding decode to it. (Basis:
derived; R191, R192, 92_eei_decisions.md D26.) -/
def Obligations.SkipsOnKeys : Prop :=
  ∀ (x : Nibble) (s : State) (k : Nat) (h : k < 16), k = (s.reg x).toNat % 16 →
    Spells (0xE09E + x.toNat * 256) (.skipIfKey x) ∧ Spells (0xE0A1 + x.toNat * 256) (.skipIfNotKey x) ∧
    exec (.skipIfKey x) s = .next { s with pc := if s.keys[k]'h = true then s.pc + 4 else s.pc + 2 } ∧
    exec (.skipIfNotKey x) s = .next { s with pc := if s.keys[k]'h = false then s.pc + 4 else s.pc + 2 }

/-- await-key stores the lowest pressed key, or changes nothing while none is down; as a stub it only advances. In block
mode: when key k is pressed and no lower one is, await-key leaves k in x[X], every other register unchanged, pc + 2
and nothing else changed; when no key is pressed it answers the same state. In stub mode it only sets pc + 2. Level,
lowest key and mode are the spec's decision D18 (log entry 21). (Basis: derived; 44_keys_timers.md R193 (its wait is
the spec's decision), 92_eei_decisions.md D18.) -/
def Obligations.AwaitKeyByMode : Prop :=
  ∀ (x : Nibble) (s : State),
    (∀ k : Nibble, s.params.awaitKeyMode = .block → s.keyDown k = true →
      (∀ j : Nibble, j.toNat < k.toNat → s.keyDown j = false) →
      ∃ t, exec (.awaitKey x) s = .next t ∧ RegsAndPc s t ∧ WritesOne s t x (BitVec.ofNat 8 k.toNat)) ∧
    (s.params.awaitKeyMode = .block → (∀ k : Nibble, s.keyDown k = false) → exec (.awaitKey x) s = .next s) ∧
    (s.params.awaitKeyMode = .stub → exec (.awaitKey x) s = .next { s with pc := s.pc + 2 })

/-- get-timer reads dt into x[X], set-timer writes x[X] to dt. For every state: get-timer leaves dt in x[X] and every
other register unchanged; set-timer leaves x[X] in dt; each sets pc + 2 and changes nothing else. The words that the
spec gives as its encoding decode to it. (Basis: stated; R194, R195.) -/
def Obligations.DelayTimerRegister : Prop :=
  ∀ (x : Nibble) (s : State),
    Spells (0xF007 + x.toNat * 256) (.getTimer x) ∧ Spells (0xF015 + x.toNat * 256) (.setTimer x) ∧
    (∃ t, exec (.getTimer x) s = .next t ∧ RegsAndPc s t ∧ WritesOne s t x s.dt) ∧
    exec (.setTimer x) s = .next { s with dt := s.reg x, pc := s.pc + 2 }

/-- n ticks lower each timer by n, no lower than 0, and touch nothing else, Halted or not. For every state and every
number n of ticks: dt and st become max(0, dt - n) and max(0, st - n); every other piece of state is unchanged.
Ticking a halted machine is the spec's decision D22 (log entry 24). (Basis: derived; 60_exceptions.md section 4,
92_eei_decisions.md D22.) -/
def Obligations.TicksSaturate : Prop :=
  ∀ (n : Nat) (s : State),
    ((tickTimers^[n] s).dt.toNat = s.dt.toNat - n ∧ (tickTimers^[n] s).st.toNat = s.st.toNat - n) ∧
    tickTimers^[n] s = { s with dt := (tickTimers^[n] s).dt, st := (tickTimers^[n] s).st }

/-- An instruction changes a register only if it names it as destination or writes it as VF. For every instruction,
state and register r: if exec changes r, then r is the instruction's X, or x[15] for the six instructions that write
VF, or within x[0..X] for a load-mode fill. That draw writes VF is the spec's decision D11. (Log entry 18; the
modes: log entries 21, 23.) That a failing instruction changes none of it is the spec's decision D9 (log entry 15).
(Basis: derived; R21, 10_state.md R22, 92_eei_decisions.md D9, D11.) -/
def Obligations.RegistersChangeOnlyAsDestinations : Prop :=
  ∀ (i : Instr) (s t : State) (r : Nibble), exec i s = .next t → t.reg r ≠ s.reg r → mayWriteReg i s r

/-- An instruction changes a byte of memory only if it stores there. For every instruction, state and address a: if exec
changes the byte at a, then the instruction is dump, store-mode fill or full-mode bcd, a lies in the range it stores
to from I up, and a is below 4096. The modes are parameters of the spec (log entries 22, 23). That a failing
instruction changes none of it is the spec's decision D9 (log entry 15). (Basis: derived; R56, 20_memory.md section
3, 92_eei_decisions.md D9.) -/
def Obligations.MemoryChangesOnlyByStores : Prop :=
  ∀ (i : Instr) (s t : State) (a : Nat), exec i s = .next t → t.mem.read a ≠ s.mem.read a →
    mayWriteByte i s a ∧ a < 4096

/-- Only clear-screen, toggle-pixel and draw change the display. For every instruction and state: if exec changes the
display, the instruction is clear-screen, toggle-pixel or draw. That a failing instruction changes none of it is the
spec's decision D9 (log entry 15). (Basis: derived; R28, 92_eei_decisions.md D9.) -/
def Obligations.DisplayChangesOnlyByThree : Prop :=
  ∀ (i : Instr) (s t : State), exec i s = .next t → t.disp ≠ s.disp →
    i = .clearScreen ∨ (∃ x y, i = .togglePixel x y) ∨ (∃ x y n, i = .draw x y n)

/-- Only set-index, add-index and set-sprite change I. For every instruction and state: if exec changes I, the
instruction is set-index, add-index or set-sprite; dump, fill, bcd and draw leave it. That a failing instruction
changes none of it is the spec's decision D9 (log entry 15). (Basis: derived; 10_state.md R25, 92_eei_decisions.md
D9.) -/
def Obligations.IndexChangesOnlyByThree : Prop :=
  ∀ (i : Instr) (s t : State), exec i s = .next t → t.index ≠ s.index →
    (∃ nnn, i = .setIndex nnn) ∨ (∃ x, i = .addIndex x) ∨ (∃ x, i = .setSprite x)

/-- Only call and return change the stack pointer, and only call an entry. For every instruction and state: if exec
changes sp the instruction is call or return; if it changes a stack entry the instruction is call and the entry is
the one at sp. The stack's layout is the spec's decision D25 (log entry 30). That a failing instruction changes none
of it is the spec's decision D9 (log entry 15). (Basis: derived; 10_state.md R26, 92_eei_decisions.md D9.) -/
def Obligations.StackChangesOnlyByCallAndReturn : Prop :=
  ∀ (i : Instr) (s t : State), exec i s = .next t →
    (t.sp ≠ s.sp → (∃ nnn, i = .call nnn) ∨ i = .ret) ∧
    (∀ (k : Nat) (h : k < 16), t.stack[k]'h ≠ s.stack[k]'h → (∃ nnn, i = .call nnn) ∧ k = s.sp.val)

/-- During a step only set-timer changes dt and only set-sound changes st. For every instruction and state: if exec
changes dt the instruction is set-timer; if it changes st it is set-sound. (Basis: derived; R27.) -/
def Obligations.TimersChangeOnlyByTheirSetters : Prop :=
  ∀ (i : Instr) (s t : State), exec i s = .next t →
    (t.dt ≠ s.dt → ∃ x, i = .setTimer x) ∧ (t.st ≠ s.st → ∃ x, i = .setSound x)

/-- A step never writes the keys or the parameters, and draws random bytes only in random. For every state and its next:
the key vector and the model's parameters field (log entry 1) are unchanged; for every instruction, if exec changes
the count of draws (log entry 4) the instruction is random. (Basis: derived; 10_state.md R29 and R38.) -/
def Obligations.StepNeverWritesKeysOrParameters : Prop :=
  (∀ s t : State, step s = .next t → t.keys = s.keys ∧ t.params = s.params) ∧
    (∀ (i : Instr) (s t : State), exec i s = .next t → t.draws ≠ s.draws → ∃ x nn, i = .random x nn)

/-- set-sound writes x[X] to st, and no instruction's effect depends on st. For every state: set-sound leaves x[X] in
st, sets pc + 2 and changes nothing else. For every instruction: executing it with another value v in st gives the
same next state with v in st, or for set-sound exactly the same next state. The words that the spec gives as its
encoding decode to it. (Basis: stated; R196.) -/
def Obligations.SoundTimerWrittenNeverRead : Prop :=
  (∀ (x : Nibble) (s : State), Spells (0xF018 + x.toNat * 256) (.setSound x) ∧
      exec (.setSound x) s = .next { s with st := s.reg x, pc := s.pc + 2 }) ∧
    ∀ (i : Instr) (s t : State) (v : Byte), exec i s = .next t →
      exec i { s with st := v } = .next (match i with
        | .setSound _ => t
        | _ => { t with st := v })

/-- Every step keeps the machine's invariant. For every state that meets the invariant (canonical memory, Running
implies no error, pc at most 4350, live stack entries at most 4096), the state after a step meets it. The bounds
rest on the spec's decisions D4, D6, D9, D15 (log entries 10, 13, 15, 9). (Basis: derived; R34, 10_state.md R24,
92_eei_decisions.md D4, D6, D9, D15.) -/
def Obligations.StepKeepsTheInvariant : Prop :=
  ∀ s t : State, s.Inv → step s = .next t → t.Inv

/-- The reset state meets the invariant under any parameters. State.reset meets the invariant, and so does the reset
state for any FONT and any mode parameters. The reset values but the pc, run and err are the spec's decision D2 (log
entries 6, 7). (Basis: derived; R34, 10_state.md R36.) -/
def Obligations.ResetMeetsTheInvariant : Prop :=
  State.reset.Inv ∧ ∀ (font : Font) (params : Params), (State.resetWith font params).Inv

/-- Every state of every run meets the invariant. From reset with any parameters and an image that fits, after any
interleaving of steps, ticks and key writes, the state meets the invariant; in particular err is None while Running
and the pc is at most 4350. That an image fits, and what a tick does in Halted, are the spec's decisions D24, D22
(log entries 26, 24); the invariant rests on log entries 10, 13, 15, 9. (Basis: derived; R34, R38.) -/
def Obligations.ReachableStatesMeetTheInvariant : Prop :=
  ∀ s : State, Reachable s → s.Inv

/-- Reset sets every piece of state to the table's value. For any FONT and parameters, after reset pc is 0x200, run is
Running, err is None, memory reads FONT at 0 to 79 and 0 from 80 to 4095, and registers, I, sp, stack, timers,
display and keys are zero or false. The zeros are the spec's decision D2 (log entries 6, 7). State.reset is the
reset state of the default parameters. Its default FONT and modes are log entries 3 and 2. (Basis: derived;
10_state.md section 8, 92_eei_decisions.md D2, D3.) -/
def Obligations.ResetValues : Prop :=
  (∀ (font : Font) (params : Params),
      (∀ (a : Nat) (h : a < 80), (State.resetWith font params).mem.read a = font[a]'h) ∧
      (∀ a, 80 ≤ a → a < 4096 → (State.resetWith font params).mem.read a = 0) ∧
      (∀ r, (State.resetWith font params).reg r = 0) ∧
      (∀ row col, (State.resetWith font params).disp.pixel row col = false) ∧
      (∀ k, (State.resetWith font params).keyDown k = false) ∧
      (∀ (k : Nat) (h : k < 16), (State.resetWith font params).stack[k]'h = 0) ∧
      (let s := State.resetWith font params
       s.pc = 0x200 ∧ s.run = .running ∧ s.err = none ∧ s.index = 0 ∧ s.sp = 0 ∧ s.dt = 0 ∧ s.st = 0 ∧
         s.params = params)) ∧
    State.reset = State.resetWith defaultFont defaultParams

/-- load_image puts byte i at 0x200 + i and nothing else; an image over 3584 bytes is refused. For every state and image
of at most 3584 bytes, byte i of the image is at 0x200 + i, every other byte and every other piece of state is
unchanged; a longer image is refused. The refusal is the spec's decision D24 (log entry 26). (Basis: derived;
70_reset_and_hazards.md R232 (the refusal is the spec's decision), 92_eei_decisions.md D24.) -/
def Obligations.LoadImagePlacesBytes : Prop :=
  ∀ (bytes : List Byte) (s : State),
    (bytes.length ≤ 3584 →
      ∃ t, loadImage bytes s = .next t ∧ Stores s t 0x200 bytes ∧ t = { s with mem := t.mem }) ∧
    (3584 < bytes.length → loadImage bytes s = .refused .imageTooLong)

/-- The encoder accepts exactly the rows of the encoding table and emits their words, high byte first. For every symbol
table, mnemonic and argument list: encode succeeds with some bytes exactly when the arguments fit a row of the table
of encodings, and the bytes are that row's word, the high byte first. The conventions the document leaves open are
the spec's decisions D27, D34 (log entry 31). (Basis: derived; 30_encoding.md R92 (conventions decided by the spec),
92_eei_decisions.md D27, D34.) -/
def Obligations.EncoderTableWords : Prop :=
  ∀ (labels : SymbolTable) (name : InstrName) (args : List Argument) (bytes : List Byte),
    encodeStatement labels (.instr name) args = .ok bytes ↔
      ∃ w, EncodingRow labels name args w ∧ bytes = [BitVec.ofNat 8 (w / 256), BitVec.ofNat 8 (w % 256)]

/-- Whatever the encoder emits for an instruction decodes to the instruction it selected. For every symbol table,
mnemonic and argument list that encodes, the bytes decode, with nothing left over, to the instruction the arguments
selected; no argument list encodes to an illegal word. (Basis: derived; R95.) -/
def Obligations.EncoderOutputDecodes : Prop :=
  ∀ (labels : SymbolTable) (name : InstrName) (args : List Argument) (bytes : List Byte),
    encodeStatement labels (.instr name) args = .ok bytes →
      ∃ i, selectInstr labels name args = .ok i ∧ decodeBytes bytes = .ok (i, [])

/-- data emits 1 to 8 literals of at most 255 as bytes in order, and nothing else encodes. For every argument list and
bytes: data encodes to them exactly when there are 1 to 8 arguments and they are the bytes as literals, in order.
(Basis: derived; R103.) -/
def Obligations.DataEmitsItsLiterals : Prop :=
  ∀ (labels : SymbolTable) (args : List Argument) (bytes : List Byte),
    encodeStatement labels .data args = .ok bytes ↔
      1 ≤ args.length ∧ args.length ≤ 8 ∧ args = bytes.map (fun b => Argument.literal (b.setWidth 12))

/-- Pass 1 gives each label the address of its statement, and no name twice. For every statement list pass 1 accepts:
the table's names are all different, and a label defined after some statements has the address 0x200 plus their
sizes (2 for an instruction, the number of literals for data), wherever it is used; the sum is exact, so it fits the
table's 16 bits. The ceiling of the table is optional and a label above 0xFFFF is refused (log entry 33), and so is
a stray token, an unrecognised mnemonic among them (log entries 28, 40). (Basis: derived; R101.) -/
def Obligations.LabelsAreUniqueAndPlaced : Prop :=
  ∀ (cap : Option Nat) (ss : List Statement) (labels : SymbolTable), pass1 cap 0x200 [] ss = .ok labels →
    (labels.map Label.name).Nodup ∧
    ∀ (pre post : List Statement) (name : String) (line : Nat), ss = pre ++ .labelDef name line :: post →
      (labels.lookup name).map BitVec.toNat = some (0x200 + (pre.map Claims.sizeOf).sum)

/-- Pass 2 fills the image without gaps and moves exactly as pass 1 does. For every token sequence that pass 2 accepts:
the cells stand at 0x200, 0x201, ... in order, and their number is the sum of the statement sizes pass 1 used. Token
sequences the lexer would not produce are refused (log entries 28, 40); the end of memory bounds neither pass (log
entry 41). (Basis: derived; R101, R104, R105.) -/
def Obligations.PassesAgreeOnAddresses : Prop :=
  ∀ (labels : SymbolTable) (tokens : List Token) (cells : List Host.Cell),
    pass2 labels 0x200 (splitStatements none tokens) = .ok cells →
      cells.map Prod.fst = List.range' 0x200 cells.length ∧
      cells.length = ((splitStatements none tokens).map Claims.sizeOf).sum
end

