-- ==== Sys2Proof/Laws/Assembler.lean ====
section
/-! SUPPORT. What the assembler's range checks answer, and how the Symbol Table grows (spec/30_encoding.md R91,
R101). -/

namespace Sys2Proof.Machine

/-- A literal passes the 8-bit check exactly when it is a byte, and then it is that byte. -/
theorem literal8_eq_ok {v : Addr12} {b : Byte} : literal8 v = .ok b ↔ v = b.setWidth 12 := by
  have hb := b.isLt
  rw [← BitVec.toNat_inj, BitVec.toNat_setWidth, Nat.mod_eq_of_lt (by omega)]
  unfold literal8
  split <;> rename_i h <;> simp [← BitVec.toNat_inj] <;> omega

/-- A cursor becomes a label's address exactly when the 16 bits hold it (R101). -/
theorem labelAddress_eq_ok {cursor : Nat} {a : Word} : labelAddress cursor = .ok a ↔ cursor = a.toNat := by
  have ha := a.isLt
  unfold labelAddress
  split <;> rename_i h <;> simp [← BitVec.toNat_inj] <;> omega

/-- A label resolves exactly when the table has it at an address of 12 bits (R91). -/
theorem resolveLabel_eq_ok {labels : SymbolTable} {name : String} {v : Addr12} :
    resolveLabel labels name = .ok v ↔ labels.lookup name = some (v.setWidth 16) := by
  have hv := v.isLt
  unfold resolveLabel
  cases labels.lookup name with
  | none => simp
  | some a =>
    simp only [Option.some.injEq]
    rw [← BitVec.toNat_inj, BitVec.toNat_setWidth, Nat.mod_eq_of_lt (a := v.toNat) (by omega)]
    split <;> rename_i h <;> simp [← BitVec.toNat_inj] <;> omega

/-- A label added at the end is found unless the table has its name already; every earlier answer stays (R101). -/
theorem SymbolTable.lookup_append (labels : SymbolTable) (name name' : String) (a : Word) :
    SymbolTable.lookup (labels ++ [⟨name, a⟩]) name' =
      (labels.lookup name').or (if name = name' then some a else none) := by
  unfold SymbolTable.lookup
  rw [List.find?_append]
  cases labels.find? fun l => l.name == name' <;> by_cases h : name = name' <;> simp [h]

end Sys2Proof.Machine
end

