-- ==== Sys2Proof/Laws/Decode.lean ====
section
/-! SUPPORT. Fields of the word layouts, words from their fields, words from their bytes (spec/30_encoding.md R71, R72,
spec/20_memory.md R54). -/

namespace Sys2Proof

@[simp] theorem opNibble_layoutA (op : Nibble) (nnn : Addr12) : opNibble (layoutA op nnn) = op := by
  apply BitVec.eq_of_getLsbD_eq
  intro i hi
  simp [opNibble, layoutA]
  interval_cases i <;> simp

@[simp] theorem fieldNNN_layoutA (op : Nibble) (nnn : Addr12) : fieldNNN (layoutA op nnn) = nnn := by
  apply BitVec.eq_of_getLsbD_eq
  intro i hi
  simp [fieldNNN, layoutA]
  interval_cases i <;> simp

@[simp] theorem opNibble_layoutXI (op x : Nibble) (nn : Byte) : opNibble (layoutXI op x nn) = op := by
  apply BitVec.eq_of_getLsbD_eq
  intro i hi
  simp [opNibble, layoutXI]
  interval_cases i <;> simp

@[simp] theorem fieldX_layoutXI (op x : Nibble) (nn : Byte) : fieldX (layoutXI op x nn) = x := by
  apply BitVec.eq_of_getLsbD_eq
  intro i hi
  simp [fieldX, layoutXI]
  interval_cases i <;> simp

@[simp] theorem fieldNN_layoutXI (op x : Nibble) (nn : Byte) : fieldNN (layoutXI op x nn) = nn := by
  apply BitVec.eq_of_getLsbD_eq
  intro i hi
  simp [fieldNN, layoutXI]
  interval_cases i <;> simp

@[simp] theorem opNibble_layoutXY (op x y n : Nibble) : opNibble (layoutXY op x y n) = op := by
  apply BitVec.eq_of_getLsbD_eq
  intro i hi
  simp [opNibble, layoutXY]
  interval_cases i <;> simp

@[simp] theorem fieldX_layoutXY (op x y n : Nibble) : fieldX (layoutXY op x y n) = x := by
  apply BitVec.eq_of_getLsbD_eq
  intro i hi
  simp [fieldX, layoutXY]
  interval_cases i <;> simp

@[simp] theorem fieldY_layoutXY (op x y n : Nibble) : fieldY (layoutXY op x y n) = y := by
  apply BitVec.eq_of_getLsbD_eq
  intro i hi
  simp [fieldY, layoutXY]
  interval_cases i <;> simp

@[simp] theorem fieldN_layoutXY (op x y n : Nibble) : fieldN (layoutXY op x y n) = n := by
  apply BitVec.eq_of_getLsbD_eq
  intro i hi
  simp [fieldN, layoutXY]
  interval_cases i <;> simp

@[simp] theorem opNibble_layoutXS (op x : Nibble) (lo : Byte) : opNibble (layoutXS op x lo) = op := by
  apply BitVec.eq_of_getLsbD_eq
  intro i hi
  simp [opNibble, layoutXS]
  interval_cases i <;> simp

@[simp] theorem fieldX_layoutXS (op x : Nibble) (lo : Byte) : fieldX (layoutXS op x lo) = x := by
  apply BitVec.eq_of_getLsbD_eq
  intro i hi
  simp [fieldX, layoutXS]
  interval_cases i <;> simp

@[simp] theorem fieldNN_layoutXS (op x : Nibble) (lo : Byte) : fieldNN (layoutXS op x lo) = lo := by
  apply BitVec.eq_of_getLsbD_eq
  intro i hi
  simp [fieldNN, layoutXS]
  interval_cases i <;> simp

theorem layoutA_fields (w : Word) : layoutA (opNibble w) (fieldNNN w) = w := by
  apply BitVec.eq_of_getLsbD_eq
  intro i hi
  simp [layoutA, opNibble, fieldNNN]
  interval_cases i <;> simp

theorem layoutXI_fields (w : Word) : layoutXI (opNibble w) (fieldX w) (fieldNN w) = w := by
  apply BitVec.eq_of_getLsbD_eq
  intro i hi
  simp [layoutXI, opNibble, fieldX, fieldNN]
  interval_cases i <;> simp

theorem layoutXY_fields (w : Word) : layoutXY (opNibble w) (fieldX w) (fieldY w) (fieldN w) = w := by
  apply BitVec.eq_of_getLsbD_eq
  intro i hi
  simp [layoutXY, opNibble, fieldX, fieldY, fieldN]
  interval_cases i <;> simp

theorem layoutXS_fields (w : Word) : layoutXS (opNibble w) (fieldX w) (fieldNN w) = w := by
  apply BitVec.eq_of_getLsbD_eq
  intro i hi
  simp [layoutXS, opNibble, fieldX, fieldNN]
  interval_cases i <;> simp

/-- The word of the two bytes a word is stored as. -/
theorem wordOfBytes_bytes (w : Word) : wordOfBytes (w.extractLsb' 8 8) (w.extractLsb' 0 8) = w := by
  apply BitVec.eq_of_getLsbD_eq
  intro i hi
  simp [wordOfBytes]
  interval_cases i <;> simp

@[simp] theorem decodeBytes_bytesOfWord (w : Word) (rest : List Byte) :
    decodeBytes (bytesOfWord w ++ rest) =
      match decodeWord w with
      | some i => .ok (i, rest)
      | none => .error (.invalidOpcode w) := by
  cases h : decodeWord w <;> simp [bytesOfWord, decodeBytes, wordOfBytes_bytes, h]

theorem layoutA_mask (op : Nibble) (nnn : Addr12) : layoutA op nnn &&& 0xF000 = op.setWidth 16 <<< 12 := by
  apply BitVec.eq_of_getLsbD_eq
  intro i hi
  simp [layoutA]
  interval_cases i <;> simp

theorem layoutXI_mask (op x : Nibble) (nn : Byte) : layoutXI op x nn &&& 0xF000 = op.setWidth 16 <<< 12 := by
  apply BitVec.eq_of_getLsbD_eq
  intro i hi
  simp [layoutXI]
  interval_cases i <;> simp

theorem layoutXY_mask (op x y n : Nibble) : layoutXY op x y n &&& 0xF00F = op.setWidth 16 <<< 12 ||| n.setWidth 16 := by
  apply BitVec.eq_of_getLsbD_eq
  intro i hi
  simp [layoutXY]
  interval_cases i <;> simp

theorem layoutXYN_mask (op x y n : Nibble) : layoutXY op x y n &&& 0xF000 = op.setWidth 16 <<< 12 := by
  apply BitVec.eq_of_getLsbD_eq
  intro i hi
  simp [layoutXY]
  interval_cases i <;> simp

theorem layoutXS_mask (op x : Nibble) (lo : Byte) : layoutXS op x lo &&& 0xF0FF = op.setWidth 16 <<< 12 ||| lo.setWidth 16 := by
  apply BitVec.eq_of_getLsbD_eq
  intro i hi
  simp [layoutXS]
  interval_cases i <;> simp

/-! The decoder by leading nibble: one lemma per value (R75). -/

theorem decodeWord_op0 (w : Word) (h : opNibble w = 0x0) : decodeWord w = decodeZ w := by
  simp [decodeWord, h]

theorem decodeWord_op1 (w : Word) (h : opNibble w = 0x1) : decodeWord w = some (.jump (fieldNNN w)) := by
  simp [decodeWord, h]

theorem decodeWord_op2 (w : Word) (h : opNibble w = 0x2) : decodeWord w = some (.call (fieldNNN w)) := by
  simp [decodeWord, h]

theorem decodeWord_op3 (w : Word) (h : opNibble w = 0x3) : decodeWord w = some (.skipIfEqImm (fieldX w) (fieldNN w)) := by
  simp [decodeWord, h]

theorem decodeWord_op4 (w : Word) (h : opNibble w = 0x4) : decodeWord w = some (.skipIfNeImm (fieldX w) (fieldNN w)) := by
  simp [decodeWord, h]

theorem decodeWord_op5 (w : Word) (h : opNibble w = 0x5) : decodeWord w = decode5 (fieldX w) (fieldY w) (fieldN w) := by
  simp [decodeWord, h]

theorem decodeWord_op6 (w : Word) (h : opNibble w = 0x6) : decodeWord w = some (.setImm (fieldX w) (fieldNN w)) := by
  simp [decodeWord, h]

theorem decodeWord_op7 (w : Word) (h : opNibble w = 0x7) : decodeWord w = some (.addImm (fieldX w) (fieldNN w)) := by
  simp [decodeWord, h]

theorem decodeWord_op8 (w : Word) (h : opNibble w = 0x8) : decodeWord w = decode8 (fieldX w) (fieldY w) (fieldN w) := by
  simp [decodeWord, h]

theorem decodeWord_op9 (w : Word) (h : opNibble w = 0x9) : decodeWord w = decode9 (fieldX w) (fieldY w) (fieldN w) := by
  simp [decodeWord, h]

theorem decodeWord_opA (w : Word) (h : opNibble w = 0xA) : decodeWord w = some (.setIndex (fieldNNN w)) := by
  simp [decodeWord, h]

theorem decodeWord_opB (w : Word) (h : opNibble w = 0xB) : decodeWord w = some (.jumpR0 (fieldNNN w)) := by
  simp [decodeWord, h]

theorem decodeWord_opC (w : Word) (h : opNibble w = 0xC) : decodeWord w = some (.random (fieldX w) (fieldNN w)) := by
  simp [decodeWord, h]

theorem decodeWord_opD (w : Word) (h : opNibble w = 0xD) : decodeWord w = some (.draw (fieldX w) (fieldY w) (fieldN w)) := by
  simp [decodeWord, h]

theorem decodeWord_opE (w : Word) (h : opNibble w = 0xE) : decodeWord w = decodeE (fieldX w) (fieldNN w) := by
  simp [decodeWord, h]

theorem decodeWord_opF (w : Word) (h : opNibble w = 0xF) : decodeWord w = decodeF (fieldX w) (fieldNN w) := by
  simp [decodeWord, h]

end Sys2Proof
end

