-- ==== Sys2Proof/Laws/Memory.lean ====
section
/-! SUPPORT. Memory: what a read gives after each operation, and that every operation keeps the canonical form
(spec/20_memory.md R52, R53, R58). -/

namespace Sys2Proof.Machine

theorem Memory.read_erase (m : Memory) (a a' : Nat) :
    (Memory.erase a m).read a' = if a' = a then unlisted a' else m.read a' := by
  induction m with
  | nil => simp [Memory.erase, Memory.read]
  | cons e m ih =>
    obtain ⟨k, b⟩ := e
    by_cases h : a = k
    · simp only [Memory.erase, h, if_pos, Memory.read]
      rw [← h, ih]
      split <;> rfl
    · simp only [Memory.erase, if_neg h, Memory.read, ih]
      split
      · rename_i h'
        rw [if_neg (by omega)]
      · rfl

theorem Memory.read_insert (m : Memory) (a a' : Nat) (v : Byte) :
    (Memory.insert a v m).read a' = if a' = a then v else m.read a' := by
  induction m with
  | nil => simp [Memory.insert, Memory.read]
  | cons e m ih =>
    obtain ⟨k, b⟩ := e
    simp only [Memory.insert]
    split
    · simp [Memory.read]
    · split
      · rename_i h
        subst h
        simp only [Memory.read]
        split <;> rfl
      · simp only [Memory.read, ih]
        split
        · rename_i h
          rw [if_neg (by omega)]
        · rfl

/-- A read after a write: the value written at that address, every other address as before. -/
theorem Memory.read_write (m : Memory) (a a' : Nat) (v : Byte) :
    (m.write a v).read a' = if a' = a ∧ a < 4096 then v else m.read a' := by
  unfold Memory.write
  by_cases ha : a < 4096
  · by_cases hv : v = unlisted a
    · rw [if_pos ha, if_pos hv, Memory.read_erase]
      by_cases h : a' = a <;> simp [h, ha, hv]
    · rw [if_pos ha, if_neg hv, Memory.read_insert]
      by_cases h : a' = a <;> simp [h, ha]
  · simp [ha]

@[simp] theorem Memory.length_readBytes (m : Memory) (base n : Nat) : (m.readBytes base n).length = n := by
  induction n generalizing base with
  | zero => rfl
  | succ n ih => simp [Memory.readBytes, ih]

/-- Byte `k` of a block read is the byte at `base + k`. -/
theorem Memory.getElem_readBytes (m : Memory) (base n k : Nat) (h : k < (m.readBytes base n).length) :
    (m.readBytes base n)[k] = m.read (base + k) := by
  induction n generalizing base k with
  | zero => simp [Memory.readBytes] at h
  | succ n ih =>
    cases k with
    | zero => rfl
    | succ k =>
      simp only [Memory.readBytes, List.getElem_cons_succ]
      rw [ih]
      congr 1
      omega

/-- A read after a block write inside the memory: byte `a - base` of the block in the block's range, every other
address as before. -/
theorem Memory.read_writeBytes (m : Memory) (base a : Nat) (vs : List Byte)
    (hr : base + vs.length ≤ 4096) :
    (m.writeBytes base vs).read a = if base ≤ a then (vs[a - base]?).getD (m.read a) else m.read a := by
  induction vs generalizing m base with
  | nil => simp [Memory.writeBytes]
  | cons v vs ih =>
    simp only [List.length_cons] at hr
    have hb : base < 4096 := by omega
    simp only [Memory.writeBytes]
    rw [ih _ _ (by omega), Memory.read_write]
    by_cases h1 : base + 1 ≤ a
    · have h3 : a - base = (a - (base + 1)) + 1 := by omega
      rw [if_pos h1, if_pos (show base ≤ a by omega), h3, List.getElem?_cons_succ]
      rw [if_neg (by omega)]
    · rw [if_neg h1]
      by_cases h2 : base ≤ a
      · have h4 : a = base := by omega
        subst h4
        simp [hb]
      · rw [if_neg (by omega), if_neg h2]

theorem Memory.wfFrom_mono (m : Memory) (lo lo' : Nat) (h : lo' ≤ lo) (hw : m.wfFrom lo = true) :
    m.wfFrom lo' = true := by
  cases m with
  | nil => rfl
  | cons e m =>
    simp only [Memory.wfFrom, Bool.and_eq_true, decide_eq_true_eq] at hw ⊢
    obtain ⟨⟨⟨h1, h2⟩, h3⟩, h4⟩ := hw
    exact ⟨⟨⟨by omega, h2⟩, h3⟩, h4⟩

theorem Memory.wfFrom_erase (m : Memory) (lo a : Nat) (hw : m.wfFrom lo = true) :
    (Memory.erase a m).wfFrom lo = true := by
  induction m generalizing lo with
  | nil => rfl
  | cons e m ih =>
    simp only [Memory.wfFrom, Bool.and_eq_true, decide_eq_true_eq] at hw
    obtain ⟨⟨⟨h1, h2⟩, h3⟩, h4⟩ := hw
    simp only [Memory.erase]
    split
    · exact Memory.wfFrom_mono _ _ _ (by omega) (ih _ h4)
    · simp only [Memory.wfFrom, Bool.and_eq_true, decide_eq_true_eq]
      exact ⟨⟨⟨h1, h2⟩, h3⟩, ih _ h4⟩

theorem Memory.wfFrom_insert (m : Memory) (lo a : Nat) (v : Byte) (hlo : lo ≤ a) (ha : a < 4096)
    (hv : v ≠ unlisted a) (hw : m.wfFrom lo = true) : (Memory.insert a v m).wfFrom lo = true := by
  induction m generalizing lo with
  | nil =>
    simp only [Memory.insert, Memory.wfFrom, Bool.and_eq_true, decide_eq_true_eq]
    exact ⟨⟨⟨hlo, ha⟩, hv⟩, trivial⟩
  | cons e m ih =>
    simp only [Memory.wfFrom, Bool.and_eq_true, decide_eq_true_eq] at hw
    obtain ⟨⟨⟨h1, h2⟩, h3⟩, h4⟩ := hw
    simp only [Memory.insert]
    split
    · simp only [Memory.wfFrom, Bool.and_eq_true, decide_eq_true_eq]
      exact ⟨⟨⟨hlo, ha⟩, hv⟩, ⟨⟨by omega, h2⟩, h3⟩, h4⟩
    · split
      · rename_i h
        simp only [Memory.wfFrom, Bool.and_eq_true, decide_eq_true_eq]
        exact ⟨⟨⟨hlo, ha⟩, hv⟩, h ▸ h4⟩
      · simp only [Memory.wfFrom, Bool.and_eq_true, decide_eq_true_eq]
        exact ⟨⟨⟨h1, h2⟩, h3⟩, ih _ (by omega) h4⟩

/-- A write keeps the canonical form. -/
theorem Memory.wf_write (m : Memory) (a : Nat) (v : Byte) (hw : m.wf = true) : (m.write a v).wf = true := by
  unfold Memory.write Memory.wf at *
  split
  · split
    · exact Memory.wfFrom_erase _ _ _ hw
    · rename_i ha hv
      exact Memory.wfFrom_insert _ _ _ _ (Nat.zero_le _) ha hv hw
  · exact hw

/-- A block write keeps the canonical form. -/
theorem Memory.wf_writeBytes (m : Memory) (base : Nat) (vs : List Byte) (hw : m.wf = true) :
    (m.writeBytes base vs).wf = true := by
  induction vs generalizing m base with
  | nil => exact hw
  | cons v vs ih => exact ih _ _ (Memory.wf_write _ _ _ hw)

/-- The check of a range (R52, R53): no byte at all, or the highest one exists. -/
theorem rangeOk_iff (addr n : Nat) : rangeOk addr n = true ↔ n = 0 ∨ addr + n ≤ 4096 := by
  simp only [rangeOk, Bool.or_eq_true, beq_iff_eq, decide_eq_true_eq]
  omega

/-- All that a checked read can do. -/
theorem memRead_cases (m : Memory) (addr n : Nat) :
    (memRead m addr n = some (m.readBytes addr n) ∧ (n = 0 ∨ addr + n ≤ 4096)) ∨
    (memRead m addr n = none ∧ n ≠ 0 ∧ 4096 < addr + n) := by
  unfold memRead
  split
  · rename_i h
    exact .inl ⟨rfl, (rangeOk_iff _ _).1 h⟩
  · rename_i h
    rw [rangeOk_iff] at h
    exact .inr ⟨rfl, by omega, by omega⟩

/-- All that a checked write can do. -/
theorem memWrite_cases (m : Memory) (addr : Nat) (vs : List Byte) :
    (memWrite m addr vs = some (m.writeBytes addr vs) ∧ (vs = [] ∨ addr + vs.length ≤ 4096)) ∨
    (memWrite m addr vs = none ∧ vs ≠ [] ∧ 4096 < addr + vs.length) := by
  unfold memWrite
  split
  · rename_i h
    rw [rangeOk_iff, List.length_eq_zero_iff] at h
    exact .inl ⟨rfl, h⟩
  · rename_i h
    rw [rangeOk_iff, List.length_eq_zero_iff] at h
    exact .inr ⟨rfl, by tauto, by omega⟩

/-- All that a fetch's read can do (R74). -/
theorem memReadWord_cases (m : Memory) (addr : Nat) :
    (memReadWord m addr = some (wordOfBytes (m.read addr) (m.read (addr + 1))) ∧ addr ≤ 4094) ∨
    (memReadWord m addr = none ∧ 4095 ≤ addr) := by
  unfold memReadWord
  split
  · rename_i h
    rw [rangeOk_iff] at h
    exact .inl ⟨rfl, by omega⟩
  · rename_i h
    rw [rangeOk_iff] at h
    exact .inr ⟨rfl, by omega⟩

end Sys2Proof.Machine
end

