-- ==== Sys2Proof/Laws/State.lean ====
section
/-! SUPPORT. One lemma per field per state update: what the update does to that field. -/

namespace Sys2Proof.Machine

section
variable (s : State)

@[simp] theorem State.writeReg_x (i : Nibble) (v : Byte) : (s.writeReg i v).x = s.x.set i.toNat v i.isLt := rfl
@[simp] theorem State.writeReg_index (i : Nibble) (v : Byte) : (s.writeReg i v).index = s.index := rfl
@[simp] theorem State.writeReg_pc (i : Nibble) (v : Byte) : (s.writeReg i v).pc = s.pc := rfl
@[simp] theorem State.writeReg_stack (i : Nibble) (v : Byte) : (s.writeReg i v).stack = s.stack := rfl
@[simp] theorem State.writeReg_sp (i : Nibble) (v : Byte) : (s.writeReg i v).sp = s.sp := rfl
@[simp] theorem State.writeReg_dt (i : Nibble) (v : Byte) : (s.writeReg i v).dt = s.dt := rfl
@[simp] theorem State.writeReg_st (i : Nibble) (v : Byte) : (s.writeReg i v).st = s.st := rfl
@[simp] theorem State.writeReg_disp (i : Nibble) (v : Byte) : (s.writeReg i v).disp = s.disp := rfl
@[simp] theorem State.writeReg_keys (i : Nibble) (v : Byte) : (s.writeReg i v).keys = s.keys := rfl
@[simp] theorem State.writeReg_mem (i : Nibble) (v : Byte) : (s.writeReg i v).mem = s.mem := rfl
@[simp] theorem State.writeReg_run (i : Nibble) (v : Byte) : (s.writeReg i v).run = s.run := rfl
@[simp] theorem State.writeReg_err (i : Nibble) (v : Byte) : (s.writeReg i v).err = s.err := rfl
@[simp] theorem State.writeReg_params (i : Nibble) (v : Byte) : (s.writeReg i v).params = s.params := rfl
@[simp] theorem State.writeReg_draws (i : Nibble) (v : Byte) : (s.writeReg i v).draws = s.draws := rfl

@[simp] theorem State.setRegs_x (x : Vector Byte 16) : (s.setRegs x).x = x := rfl
@[simp] theorem State.setRegs_index (x : Vector Byte 16) : (s.setRegs x).index = s.index := rfl
@[simp] theorem State.setRegs_pc (x : Vector Byte 16) : (s.setRegs x).pc = s.pc := rfl
@[simp] theorem State.setRegs_stack (x : Vector Byte 16) : (s.setRegs x).stack = s.stack := rfl
@[simp] theorem State.setRegs_sp (x : Vector Byte 16) : (s.setRegs x).sp = s.sp := rfl
@[simp] theorem State.setRegs_dt (x : Vector Byte 16) : (s.setRegs x).dt = s.dt := rfl
@[simp] theorem State.setRegs_st (x : Vector Byte 16) : (s.setRegs x).st = s.st := rfl
@[simp] theorem State.setRegs_disp (x : Vector Byte 16) : (s.setRegs x).disp = s.disp := rfl
@[simp] theorem State.setRegs_keys (x : Vector Byte 16) : (s.setRegs x).keys = s.keys := rfl
@[simp] theorem State.setRegs_mem (x : Vector Byte 16) : (s.setRegs x).mem = s.mem := rfl
@[simp] theorem State.setRegs_run (x : Vector Byte 16) : (s.setRegs x).run = s.run := rfl
@[simp] theorem State.setRegs_err (x : Vector Byte 16) : (s.setRegs x).err = s.err := rfl
@[simp] theorem State.setRegs_params (x : Vector Byte 16) : (s.setRegs x).params = s.params := rfl
@[simp] theorem State.setRegs_draws (x : Vector Byte 16) : (s.setRegs x).draws = s.draws := rfl

@[simp] theorem State.setIndex_x (v : Word) : (s.setIndex v).x = s.x := rfl
@[simp] theorem State.setIndex_index (v : Word) : (s.setIndex v).index = v := rfl
@[simp] theorem State.setIndex_pc (v : Word) : (s.setIndex v).pc = s.pc := rfl
@[simp] theorem State.setIndex_stack (v : Word) : (s.setIndex v).stack = s.stack := rfl
@[simp] theorem State.setIndex_sp (v : Word) : (s.setIndex v).sp = s.sp := rfl
@[simp] theorem State.setIndex_dt (v : Word) : (s.setIndex v).dt = s.dt := rfl
@[simp] theorem State.setIndex_st (v : Word) : (s.setIndex v).st = s.st := rfl
@[simp] theorem State.setIndex_disp (v : Word) : (s.setIndex v).disp = s.disp := rfl
@[simp] theorem State.setIndex_keys (v : Word) : (s.setIndex v).keys = s.keys := rfl
@[simp] theorem State.setIndex_mem (v : Word) : (s.setIndex v).mem = s.mem := rfl
@[simp] theorem State.setIndex_run (v : Word) : (s.setIndex v).run = s.run := rfl
@[simp] theorem State.setIndex_err (v : Word) : (s.setIndex v).err = s.err := rfl
@[simp] theorem State.setIndex_params (v : Word) : (s.setIndex v).params = s.params := rfl
@[simp] theorem State.setIndex_draws (v : Word) : (s.setIndex v).draws = s.draws := rfl

@[simp] theorem State.setPc_x (v : Word) : (s.setPc v).x = s.x := rfl
@[simp] theorem State.setPc_index (v : Word) : (s.setPc v).index = s.index := rfl
@[simp] theorem State.setPc_pc (v : Word) : (s.setPc v).pc = v := rfl
@[simp] theorem State.setPc_stack (v : Word) : (s.setPc v).stack = s.stack := rfl
@[simp] theorem State.setPc_sp (v : Word) : (s.setPc v).sp = s.sp := rfl
@[simp] theorem State.setPc_dt (v : Word) : (s.setPc v).dt = s.dt := rfl
@[simp] theorem State.setPc_st (v : Word) : (s.setPc v).st = s.st := rfl
@[simp] theorem State.setPc_disp (v : Word) : (s.setPc v).disp = s.disp := rfl
@[simp] theorem State.setPc_keys (v : Word) : (s.setPc v).keys = s.keys := rfl
@[simp] theorem State.setPc_mem (v : Word) : (s.setPc v).mem = s.mem := rfl
@[simp] theorem State.setPc_run (v : Word) : (s.setPc v).run = s.run := rfl
@[simp] theorem State.setPc_err (v : Word) : (s.setPc v).err = s.err := rfl
@[simp] theorem State.setPc_params (v : Word) : (s.setPc v).params = s.params := rfl
@[simp] theorem State.setPc_draws (v : Word) : (s.setPc v).draws = s.draws := rfl

@[simp] theorem State.advance_x : s.advance.x = s.x := rfl
@[simp] theorem State.advance_index : s.advance.index = s.index := rfl
@[simp] theorem State.advance_pc : s.advance.pc = s.pc + 2 := rfl
@[simp] theorem State.advance_stack : s.advance.stack = s.stack := rfl
@[simp] theorem State.advance_sp : s.advance.sp = s.sp := rfl
@[simp] theorem State.advance_dt : s.advance.dt = s.dt := rfl
@[simp] theorem State.advance_st : s.advance.st = s.st := rfl
@[simp] theorem State.advance_disp : s.advance.disp = s.disp := rfl
@[simp] theorem State.advance_keys : s.advance.keys = s.keys := rfl
@[simp] theorem State.advance_mem : s.advance.mem = s.mem := rfl
@[simp] theorem State.advance_run : s.advance.run = s.run := rfl
@[simp] theorem State.advance_err : s.advance.err = s.err := rfl
@[simp] theorem State.advance_params : s.advance.params = s.params := rfl
@[simp] theorem State.advance_draws : s.advance.draws = s.draws := rfl

@[simp] theorem State.setMem_x (m : Memory) : (s.setMem m).x = s.x := rfl
@[simp] theorem State.setMem_index (m : Memory) : (s.setMem m).index = s.index := rfl
@[simp] theorem State.setMem_pc (m : Memory) : (s.setMem m).pc = s.pc := rfl
@[simp] theorem State.setMem_stack (m : Memory) : (s.setMem m).stack = s.stack := rfl
@[simp] theorem State.setMem_sp (m : Memory) : (s.setMem m).sp = s.sp := rfl
@[simp] theorem State.setMem_dt (m : Memory) : (s.setMem m).dt = s.dt := rfl
@[simp] theorem State.setMem_st (m : Memory) : (s.setMem m).st = s.st := rfl
@[simp] theorem State.setMem_disp (m : Memory) : (s.setMem m).disp = s.disp := rfl
@[simp] theorem State.setMem_keys (m : Memory) : (s.setMem m).keys = s.keys := rfl
@[simp] theorem State.setMem_mem (m : Memory) : (s.setMem m).mem = m := rfl
@[simp] theorem State.setMem_run (m : Memory) : (s.setMem m).run = s.run := rfl
@[simp] theorem State.setMem_err (m : Memory) : (s.setMem m).err = s.err := rfl
@[simp] theorem State.setMem_params (m : Memory) : (s.setMem m).params = s.params := rfl
@[simp] theorem State.setMem_draws (m : Memory) : (s.setMem m).draws = s.draws := rfl

@[simp] theorem State.setDisp_x (d : Display) : (s.setDisp d).x = s.x := rfl
@[simp] theorem State.setDisp_index (d : Display) : (s.setDisp d).index = s.index := rfl
@[simp] theorem State.setDisp_pc (d : Display) : (s.setDisp d).pc = s.pc := rfl
@[simp] theorem State.setDisp_stack (d : Display) : (s.setDisp d).stack = s.stack := rfl
@[simp] theorem State.setDisp_sp (d : Display) : (s.setDisp d).sp = s.sp := rfl
@[simp] theorem State.setDisp_dt (d : Display) : (s.setDisp d).dt = s.dt := rfl
@[simp] theorem State.setDisp_st (d : Display) : (s.setDisp d).st = s.st := rfl
@[simp] theorem State.setDisp_disp (d : Display) : (s.setDisp d).disp = d := rfl
@[simp] theorem State.setDisp_keys (d : Display) : (s.setDisp d).keys = s.keys := rfl
@[simp] theorem State.setDisp_mem (d : Display) : (s.setDisp d).mem = s.mem := rfl
@[simp] theorem State.setDisp_run (d : Display) : (s.setDisp d).run = s.run := rfl
@[simp] theorem State.setDisp_err (d : Display) : (s.setDisp d).err = s.err := rfl
@[simp] theorem State.setDisp_params (d : Display) : (s.setDisp d).params = s.params := rfl
@[simp] theorem State.setDisp_draws (d : Display) : (s.setDisp d).draws = s.draws := rfl

@[simp] theorem State.setDelay_x (v : Byte) : (s.setDelay v).x = s.x := rfl
@[simp] theorem State.setDelay_index (v : Byte) : (s.setDelay v).index = s.index := rfl
@[simp] theorem State.setDelay_pc (v : Byte) : (s.setDelay v).pc = s.pc := rfl
@[simp] theorem State.setDelay_stack (v : Byte) : (s.setDelay v).stack = s.stack := rfl
@[simp] theorem State.setDelay_sp (v : Byte) : (s.setDelay v).sp = s.sp := rfl
@[simp] theorem State.setDelay_dt (v : Byte) : (s.setDelay v).dt = v := rfl
@[simp] theorem State.setDelay_st (v : Byte) : (s.setDelay v).st = s.st := rfl
@[simp] theorem State.setDelay_disp (v : Byte) : (s.setDelay v).disp = s.disp := rfl
@[simp] theorem State.setDelay_keys (v : Byte) : (s.setDelay v).keys = s.keys := rfl
@[simp] theorem State.setDelay_mem (v : Byte) : (s.setDelay v).mem = s.mem := rfl
@[simp] theorem State.setDelay_run (v : Byte) : (s.setDelay v).run = s.run := rfl
@[simp] theorem State.setDelay_err (v : Byte) : (s.setDelay v).err = s.err := rfl
@[simp] theorem State.setDelay_params (v : Byte) : (s.setDelay v).params = s.params := rfl
@[simp] theorem State.setDelay_draws (v : Byte) : (s.setDelay v).draws = s.draws := rfl

@[simp] theorem State.setSoundTimer_x (v : Byte) : (s.setSoundTimer v).x = s.x := rfl
@[simp] theorem State.setSoundTimer_index (v : Byte) : (s.setSoundTimer v).index = s.index := rfl
@[simp] theorem State.setSoundTimer_pc (v : Byte) : (s.setSoundTimer v).pc = s.pc := rfl
@[simp] theorem State.setSoundTimer_stack (v : Byte) : (s.setSoundTimer v).stack = s.stack := rfl
@[simp] theorem State.setSoundTimer_sp (v : Byte) : (s.setSoundTimer v).sp = s.sp := rfl
@[simp] theorem State.setSoundTimer_dt (v : Byte) : (s.setSoundTimer v).dt = s.dt := rfl
@[simp] theorem State.setSoundTimer_st (v : Byte) : (s.setSoundTimer v).st = v := rfl
@[simp] theorem State.setSoundTimer_disp (v : Byte) : (s.setSoundTimer v).disp = s.disp := rfl
@[simp] theorem State.setSoundTimer_keys (v : Byte) : (s.setSoundTimer v).keys = s.keys := rfl
@[simp] theorem State.setSoundTimer_mem (v : Byte) : (s.setSoundTimer v).mem = s.mem := rfl
@[simp] theorem State.setSoundTimer_run (v : Byte) : (s.setSoundTimer v).run = s.run := rfl
@[simp] theorem State.setSoundTimer_err (v : Byte) : (s.setSoundTimer v).err = s.err := rfl
@[simp] theorem State.setSoundTimer_params (v : Byte) : (s.setSoundTimer v).params = s.params := rfl
@[simp] theorem State.setSoundTimer_draws (v : Byte) : (s.setSoundTimer v).draws = s.draws := rfl

@[simp] theorem State.countDraw_x : s.countDraw.x = s.x := rfl
@[simp] theorem State.countDraw_index : s.countDraw.index = s.index := rfl
@[simp] theorem State.countDraw_pc : s.countDraw.pc = s.pc := rfl
@[simp] theorem State.countDraw_stack : s.countDraw.stack = s.stack := rfl
@[simp] theorem State.countDraw_sp : s.countDraw.sp = s.sp := rfl
@[simp] theorem State.countDraw_dt : s.countDraw.dt = s.dt := rfl
@[simp] theorem State.countDraw_st : s.countDraw.st = s.st := rfl
@[simp] theorem State.countDraw_disp : s.countDraw.disp = s.disp := rfl
@[simp] theorem State.countDraw_keys : s.countDraw.keys = s.keys := rfl
@[simp] theorem State.countDraw_mem : s.countDraw.mem = s.mem := rfl
@[simp] theorem State.countDraw_run : s.countDraw.run = s.run := rfl
@[simp] theorem State.countDraw_err : s.countDraw.err = s.err := rfl
@[simp] theorem State.countDraw_params : s.countDraw.params = s.params := rfl
@[simp] theorem State.countDraw_draws : s.countDraw.draws = s.draws + 1 := rfl

@[simp] theorem State.haltNormally_x : s.haltNormally.x = s.x := rfl
@[simp] theorem State.haltNormally_index : s.haltNormally.index = s.index := rfl
@[simp] theorem State.haltNormally_pc : s.haltNormally.pc = s.pc := rfl
@[simp] theorem State.haltNormally_stack : s.haltNormally.stack = s.stack := rfl
@[simp] theorem State.haltNormally_sp : s.haltNormally.sp = s.sp := rfl
@[simp] theorem State.haltNormally_dt : s.haltNormally.dt = s.dt := rfl
@[simp] theorem State.haltNormally_st : s.haltNormally.st = s.st := rfl
@[simp] theorem State.haltNormally_disp : s.haltNormally.disp = s.disp := rfl
@[simp] theorem State.haltNormally_keys : s.haltNormally.keys = s.keys := rfl
@[simp] theorem State.haltNormally_mem : s.haltNormally.mem = s.mem := rfl
@[simp] theorem State.haltNormally_run : s.haltNormally.run = RunState.halted := rfl
@[simp] theorem State.haltNormally_err : s.haltNormally.err = none := rfl
@[simp] theorem State.haltNormally_params : s.haltNormally.params = s.params := rfl
@[simp] theorem State.haltNormally_draws : s.haltNormally.draws = s.draws := rfl

@[simp] theorem State.setIndex_reg (v : Word) (r : Nibble) : (s.setIndex v).reg r = s.reg r := rfl
@[simp] theorem State.setPc_reg (v : Word) (r : Nibble) : (s.setPc v).reg r = s.reg r := rfl
@[simp] theorem State.advance_reg (r : Nibble) : s.advance.reg r = s.reg r := rfl
@[simp] theorem State.setMem_reg (m : Memory) (r : Nibble) : (s.setMem m).reg r = s.reg r := rfl
@[simp] theorem State.setDisp_reg (d : Display) (r : Nibble) : (s.setDisp d).reg r = s.reg r := rfl
@[simp] theorem State.setDelay_reg (v : Byte) (r : Nibble) : (s.setDelay v).reg r = s.reg r := rfl
@[simp] theorem State.setSoundTimer_reg (v : Byte) (r : Nibble) : (s.setSoundTimer v).reg r = s.reg r := rfl
@[simp] theorem State.countDraw_reg (r : Nibble) : s.countDraw.reg r = s.reg r := rfl
@[simp] theorem State.haltNormally_reg (r : Nibble) : s.haltNormally.reg r = s.reg r := rfl
@[simp] theorem State.skipIf_reg (c : Bool) (r : Nibble) : (s.skipIf c).reg r = s.reg r := by
  cases c <;> rfl
@[simp] theorem setKey_reg (k : Nibble) (down : Bool) (r : Nibble) : (setKey k down s).reg r = s.reg r := rfl
@[simp] theorem tickTimers_reg (r : Nibble) : (tickTimers s).reg r = s.reg r := rfl

@[simp] theorem State.skipIf_x (c : Bool) : (s.skipIf c).x = s.x := by
  cases c <;> rfl
@[simp] theorem State.skipIf_index (c : Bool) : (s.skipIf c).index = s.index := by
  cases c <;> rfl
@[simp] theorem State.skipIf_pc (c : Bool) : (s.skipIf c).pc = if c then s.pc + 4 else s.pc + 2 := by
  cases c <;> rfl
@[simp] theorem State.skipIf_stack (c : Bool) : (s.skipIf c).stack = s.stack := by
  cases c <;> rfl
@[simp] theorem State.skipIf_sp (c : Bool) : (s.skipIf c).sp = s.sp := by
  cases c <;> rfl
@[simp] theorem State.skipIf_dt (c : Bool) : (s.skipIf c).dt = s.dt := by
  cases c <;> rfl
@[simp] theorem State.skipIf_st (c : Bool) : (s.skipIf c).st = s.st := by
  cases c <;> rfl
@[simp] theorem State.skipIf_disp (c : Bool) : (s.skipIf c).disp = s.disp := by
  cases c <;> rfl
@[simp] theorem State.skipIf_keys (c : Bool) : (s.skipIf c).keys = s.keys := by
  cases c <;> rfl
@[simp] theorem State.skipIf_mem (c : Bool) : (s.skipIf c).mem = s.mem := by
  cases c <;> rfl
@[simp] theorem State.skipIf_run (c : Bool) : (s.skipIf c).run = s.run := by
  cases c <;> rfl
@[simp] theorem State.skipIf_err (c : Bool) : (s.skipIf c).err = s.err := by
  cases c <;> rfl
@[simp] theorem State.skipIf_params (c : Bool) : (s.skipIf c).params = s.params := by
  cases c <;> rfl
@[simp] theorem State.skipIf_draws (c : Bool) : (s.skipIf c).draws = s.draws := by
  cases c <;> rfl

@[simp] theorem setKey_x (k : Nibble) (down : Bool) : (setKey k down s).x = s.x := rfl
@[simp] theorem setKey_index (k : Nibble) (down : Bool) : (setKey k down s).index = s.index := rfl
@[simp] theorem setKey_pc (k : Nibble) (down : Bool) : (setKey k down s).pc = s.pc := rfl
@[simp] theorem setKey_stack (k : Nibble) (down : Bool) : (setKey k down s).stack = s.stack := rfl
@[simp] theorem setKey_sp (k : Nibble) (down : Bool) : (setKey k down s).sp = s.sp := rfl
@[simp] theorem setKey_dt (k : Nibble) (down : Bool) : (setKey k down s).dt = s.dt := rfl
@[simp] theorem setKey_st (k : Nibble) (down : Bool) : (setKey k down s).st = s.st := rfl
@[simp] theorem setKey_disp (k : Nibble) (down : Bool) : (setKey k down s).disp = s.disp := rfl
@[simp] theorem setKey_keys (k : Nibble) (down : Bool) : (setKey k down s).keys = s.keys.set k.toNat down k.isLt := rfl
@[simp] theorem setKey_mem (k : Nibble) (down : Bool) : (setKey k down s).mem = s.mem := rfl
@[simp] theorem setKey_run (k : Nibble) (down : Bool) : (setKey k down s).run = s.run := rfl
@[simp] theorem setKey_err (k : Nibble) (down : Bool) : (setKey k down s).err = s.err := rfl
@[simp] theorem setKey_params (k : Nibble) (down : Bool) : (setKey k down s).params = s.params := rfl
@[simp] theorem setKey_draws (k : Nibble) (down : Bool) : (setKey k down s).draws = s.draws := rfl

@[simp] theorem tickTimers_x : (tickTimers s).x = s.x := rfl
@[simp] theorem tickTimers_index : (tickTimers s).index = s.index := rfl
@[simp] theorem tickTimers_pc : (tickTimers s).pc = s.pc := rfl
@[simp] theorem tickTimers_stack : (tickTimers s).stack = s.stack := rfl
@[simp] theorem tickTimers_sp : (tickTimers s).sp = s.sp := rfl
@[simp] theorem tickTimers_dt : (tickTimers s).dt = countDown s.dt := rfl
@[simp] theorem tickTimers_st : (tickTimers s).st = countDown s.st := rfl
@[simp] theorem tickTimers_disp : (tickTimers s).disp = s.disp := rfl
@[simp] theorem tickTimers_keys : (tickTimers s).keys = s.keys := rfl
@[simp] theorem tickTimers_mem : (tickTimers s).mem = s.mem := rfl
@[simp] theorem tickTimers_run : (tickTimers s).run = s.run := rfl
@[simp] theorem tickTimers_err : (tickTimers s).err = s.err := rfl
@[simp] theorem tickTimers_params : (tickTimers s).params = s.params := rfl
@[simp] theorem tickTimers_draws : (tickTimers s).draws = s.draws := rfl

end

end Sys2Proof.Machine
end

