-- ==== Sys2Proof/Laws/Ops.lean ====
section
/-! SUPPORT. Registers, call stack, display pixels and the taking of an error: one lemma each that says all the
operation can do. -/

namespace Sys2Proof.Machine

/-- A register read after a register write (R21: none is hardwired). -/
theorem State.reg_writeReg (s : State) (i r : Nibble) (v : Byte) :
    (s.writeReg i v).reg r = if r = i then v else s.reg r := by
  simp only [State.reg, State.writeReg, Vector.getElem_set]
  by_cases h : r = i
  · simp [h]
  · have : i.toNat ≠ r.toNat := fun e => h (BitVec.eq_of_toNat_eq e.symm)
    simp [h, this]

/-- Registers after a block load: byte `r - k` of the list in its range, every other register as before. -/
theorem getElem_loadRegs (x : Vector Byte 16) (k : Nat) (bs : List Byte) (r : Nat) (hr : r < 16) :
    (loadRegs x k bs)[r] = if k ≤ r then (bs[r - k]?).getD x[r] else x[r] := by
  induction bs generalizing x k with
  | nil => simp [loadRegs]
  | cons b bs ih =>
    simp only [loadRegs]
    rw [ih]
    by_cases h1 : k + 1 ≤ r
    · have h2 : r - k = (r - (k + 1)) + 1 := by omega
      have h3 : k ≠ r := by omega
      rw [if_pos h1, if_pos (show k ≤ r by omega), h2, List.getElem?_cons_succ]
      simp [h3]
    · rw [if_neg h1]
      by_cases h2 : k ≤ r
      · have h3 : k = r := by omega
        subst h3
        simp
      · have h3 : k ≠ r := by omega
        simp [h2, h3]

/-- All that a push can do (R26). -/
theorem State.push_cases (s : State) (v : Word) :
    (∃ h : s.sp.val < 16, s.push v =
      some { s with stack := s.stack.set s.sp.val v h, sp := ⟨s.sp.val + 1, by omega⟩ }) ∨
    (s.push v = none ∧ s.sp.val = 16) := by
  unfold State.push
  split
  · rename_i h
    exact .inl ⟨h, rfl⟩
  · have := s.sp.isLt
    exact .inr ⟨rfl, by omega⟩

/-- All that a pop can do (R26). -/
theorem State.pop_cases (s : State) :
    (∃ h : 0 < s.sp.val, s.pop =
      some (s.stack[s.sp.val - 1]'(by omega), { s with sp := ⟨s.sp.val - 1, by omega⟩ })) ∨
    (s.pop = none ∧ s.sp.val = 0) := by
  unfold State.pop
  split
  · rename_i h
    exact .inl ⟨h, rfl⟩
  · exact .inr ⟨rfl, by omega⟩

/-- Taking an error is a next state that differs in `run` and `err` alone (R204). -/
theorem raise_eq (e : RunError) (s : State) :
    raise e s = .next { s with run := .halted, err := some e } := rfl

/-- A pixel after a toggle: inverted at that position when it exists, every other pixel as before (R180). -/
theorem Display.pixel_toggle (d : Display) (row col row' col' : Nat) :
    (d.toggle row col).pixel row' col' =
      if row' = row ∧ col' = col ∧ row < 32 ∧ col < 64 then !(d.pixel row col) else d.pixel row' col' := by
  unfold Display.toggle
  by_cases h : row < 32 ∧ col < 64
  · rw [dif_pos h]
    obtain ⟨hr, hc⟩ := h
    by_cases h' : row' < 32 ∧ col' < 64
    · obtain ⟨hr', hc'⟩ := h'
      simp only [Display.pixel, hr, hc, hr', hc', and_self, dif_pos, and_true]
      rw [Vector.getElem_set]
      by_cases e1 : row = row'
      · subst e1
        simp only [if_true, true_and]
        rw [Vector.getElem_set]
        by_cases e2 : col = col'
        · subst e2
          simp
        · simp [e2, Ne.symm e2]
      · simp [e1, Ne.symm e1]
    · have : ¬ (row' = row ∧ col' = col) := by
        rintro ⟨e1, e2⟩
        omega
      simp only [Display.pixel, h', dif_neg, not_false_eq_true]
      rw [if_neg (by tauto)]
  · rw [dif_neg h, if_neg (by tauto)]

@[simp] theorem Display.pixel_blank (row col : Nat) : Display.blank.pixel row col = false := by
  unfold Display.pixel Display.blank
  split <;> simp

/-- Two displays with the same pixels are the same display. -/
theorem Display.ext_pixel (d e : Display) (h : ∀ row col, row < 32 → col < 64 → d.pixel row col = e.pixel row col) :
    d = e := by
  apply Vector.ext
  intro row hr
  apply Vector.ext
  intro col hc
  have := h row col hr hc
  simpa [Display.pixel, hr, hc] using this

/-- A pixel after one sprite bit: inverted under a 1 bit that is on the screen. -/
theorem pixel_plotBit (x0 y : Nat) (b : Byte) (acc : Display × Bool) (c row col : Nat) :
    (plotBit x0 y b acc c).1.pixel row col =
      (acc.1.pixel row col ^^
        (decide (row = y ∧ col = x0 + c ∧ row < 32 ∧ col < 64) && b.getLsbD (7 - c))) := by
  unfold plotBit
  by_cases hb : b.getLsbD (7 - c) = true
  · by_cases hin : x0 + c < 64 ∧ y < 32
    · rw [if_pos (by simp [hb, hin]), Display.pixel_toggle]
      by_cases hh : row = y ∧ col = x0 + c
      · obtain ⟨rfl, rfl⟩ := hh
        simp [hb, hin]
      · rw [if_neg (by tauto), decide_eq_false (by tauto)]
        simp
    · rw [if_neg (by simp [hin]), decide_eq_false (by rintro ⟨h1, h2, h3, h4⟩; omega)]
      simp
  · simp [hb]

/-- The hit after one sprite bit: as before, or a lit pixel under a 1 bit. -/
theorem hit_plotBit (x0 y : Nat) (b : Byte) (acc : Display × Bool) (c : Nat) :
    (plotBit x0 y b acc c).2 = (acc.2 || (b.getLsbD (7 - c) && acc.1.pixel y (x0 + c))) := by
  unfold plotBit
  by_cases hin : x0 + c < 64 ∧ y < 32
  · by_cases hb : b.getLsbD (7 - c) = true <;> simp [hb, hin]
  · have hp : acc.1.pixel y (x0 + c) = false := by
      unfold Display.pixel
      rw [dif_neg (by omega)]
    simp [hin, hp]

/-- Whether the pixel is on the screen and under a 1 bit of a sprite byte drawn at column `x0` of row `y`. -/
def byteCovers (x0 y : Nat) (b : Byte) (row col : Nat) : Bool :=
  decide (row = y ∧ row < 32 ∧ col < 64 ∧ x0 ≤ col ∧ col < x0 + 8) && b.getLsbD (7 - (col - x0))

/-- A pixel after one sprite row. -/
theorem pixel_plotByte (x0 y : Nat) (b : Byte) (acc : Display × Bool) (row col : Nat) :
    (plotByte x0 y b acc).1.pixel row col = (acc.1.pixel row col ^^ byteCovers x0 y b row col) := by
  simp only [plotByte, List.foldl_cons, List.foldl_nil, pixel_plotBit, byteCovers]
  by_cases hr : row = y ∧ row < 32 ∧ col < 64 ∧ x0 ≤ col ∧ col < x0 + 8
  · obtain ⟨h1, h2, h3, h4, h5⟩ := hr
    obtain ⟨c, rfl⟩ := Nat.exists_eq_add_of_le h4
    have hc : c < 8 := by omega
    subst h1
    interval_cases c <;> simp [h2, h3]
  · rw [decide_eq_false hr]
    have hn : ∀ c, c < 8 → decide (row = y ∧ col = x0 + c ∧ row < 32 ∧ col < 64) = false := by
      intro c hc
      exact decide_eq_false (by rintro ⟨h1, h2, h3, h4⟩; omega)
    rw [hn 0 (by omega), hn 1 (by omega), hn 2 (by omega), hn 3 (by omega), hn 4 (by omega), hn 5 (by omega),
      hn 6 (by omega), hn 7 (by omega)]
    simp

/-- The hit after one sprite row: as before, or a lit pixel under one of its 1 bits. -/
theorem hit_plotByte (x0 y : Nat) (b : Byte) (acc : Display × Bool) :
    (plotByte x0 y b acc).2 = true ↔
      acc.2 = true ∨ ∃ c, c < 8 ∧ b.getLsbD (7 - c) = true ∧ acc.1.pixel y (x0 + c) = true := by
  have hn : ∀ c d, c ≠ d → decide (True ∧ x0 + c = x0 + d ∧ y < 32 ∧ x0 + c < 64) = false := by
    intro c d hcd
    exact decide_eq_false (by rintro ⟨-, h, -⟩; omega)
  have hclosed : (plotByte x0 y b acc).2 =
      (acc.2 || [0, 1, 2, 3, 4, 5, 6, 7].any fun c => b.getLsbD (7 - c) && acc.1.pixel y (x0 + c)) := by
    simp only [plotByte, List.foldl_cons, List.foldl_nil, hit_plotBit, pixel_plotBit, List.any_cons, List.any_nil]
    simp (disch := decide) only [hn, Bool.false_and, Bool.xor_false, Bool.or_false, Bool.or_assoc]
  rw [hclosed, Bool.or_eq_true, List.any_eq_true]
  constructor
  · rintro (h | ⟨c, hc, h⟩)
    · exact .inl h
    · simp only [Bool.and_eq_true] at h
      refine .inr ⟨c, ?_, h.1, h.2⟩
      simp only [List.mem_cons, List.not_mem_nil, or_false] at hc
      omega
  · rintro (h | ⟨c, hc, h1, h2⟩)
    · exact .inl h
    · refine .inr ⟨c, ?_, by simp [h1, h2]⟩
      simp only [List.mem_cons, List.not_mem_nil, or_false]
      omega

/-- Whether the pixel is on the screen and under a 1 bit of the sprite `bytes` drawn with its first row at row `y0`
and its first column at column `x0`. -/
def spriteCovers (x0 y0 : Nat) (bytes : List Byte) (row col : Nat) : Bool :=
  decide (row < 32 ∧ col < 64 ∧ y0 ≤ row ∧ x0 ≤ col ∧ col < x0 + 8)
    && ((bytes[row - y0]?).getD 0).getLsbD (7 - (col - x0))

theorem spriteCovers_cons (x0 y0 : Nat) (b : Byte) (bs : List Byte) (row col : Nat) :
    spriteCovers x0 y0 (b :: bs) row col =
      (byteCovers x0 y0 b row col ^^ spriteCovers x0 (y0 + 1) bs row col) := by
  unfold spriteCovers byteCovers
  by_cases h1 : row = y0
  · subst h1
    simp
  · by_cases h2 : y0 + 1 ≤ row
    · have h3 : row - y0 = (row - (y0 + 1)) + 1 := by omega
      have h4 : y0 ≤ row := by omega
      simp [h1, h2, h3, h4]
    · have h4 : ¬ y0 ≤ row := by omega
      simp [h1, h2, h4]

/-- A pixel after a sprite: inverted exactly under a 1 bit that is on the screen. -/
theorem pixel_plotSprite (x0 y0 : Nat) (bytes : List Byte) (acc : Display × Bool) (row col : Nat) :
    (plotSprite x0 y0 bytes acc).1.pixel row col = (acc.1.pixel row col ^^ spriteCovers x0 y0 bytes row col) := by
  induction bytes generalizing y0 acc with
  | nil => simp [plotSprite, spriteCovers]
  | cons b bs ih => rw [plotSprite, ih, pixel_plotByte, spriteCovers_cons, Bool.xor_assoc]

/-- The hit after a sprite: as before, or a lit pixel under one of its 1 bits. -/
theorem hit_plotSprite (x0 y0 : Nat) (bytes : List Byte) (acc : Display × Bool) :
    (plotSprite x0 y0 bytes acc).2 = true ↔
      acc.2 = true ∨ ∃ row col, spriteCovers x0 y0 bytes row col = true ∧ acc.1.pixel row col = true := by
  have hbyte : ∀ (y : Nat) (b : Byte) (d : Display),
      (∃ c, c < 8 ∧ b.getLsbD (7 - c) = true ∧ d.pixel y (x0 + c) = true) ↔
      ∃ row col, byteCovers x0 y b row col = true ∧ d.pixel row col = true := by
    intro y b d
    constructor
    · rintro ⟨c, hc, hb, hp⟩
      refine ⟨y, x0 + c, ?_, hp⟩
      have hin : y < 32 ∧ x0 + c < 64 := by
        by_contra hout
        simp [Display.pixel, hout] at hp
      simp [byteCovers, hin, hb, hc]
    · rintro ⟨row, col, hcov, hp⟩
      simp only [byteCovers, Bool.and_eq_true, decide_eq_true_eq] at hcov
      obtain ⟨⟨rfl, h2, h3, h4, h5⟩, h6⟩ := hcov
      exact ⟨col - x0, by omega, h6, by rwa [Nat.add_sub_cancel' h4]⟩
  have hrow : ∀ (y : Nat) (b : Byte) (row col : Nat), byteCovers x0 y b row col = true → row = y := by
    intro y b row col h
    simp only [byteCovers, Bool.and_eq_true, decide_eq_true_eq] at h
    exact h.1.1
  have hbelow : ∀ (y : Nat) (bs : List Byte) (row col : Nat), spriteCovers x0 y bs row col = true → y ≤ row := by
    intro y bs row col h
    simp only [spriteCovers, Bool.and_eq_true, decide_eq_true_eq] at h
    exact h.1.2.2.1
  induction bytes generalizing y0 acc with
  | nil => simp [plotSprite, spriteCovers]
  | cons b bs ih =>
    rw [plotSprite]
    refine (ih (y0 + 1) (plotByte x0 y0 b acc)).trans ?_
    rw [hit_plotByte, hbyte]
    constructor
    · rintro ((h | ⟨row, col, hc, hp⟩) | ⟨row, col, hc, hp⟩)
      · exact .inl h
      · refine .inr ⟨row, col, ?_, hp⟩
        have h1 := hrow _ _ _ _ hc
        have h2 : spriteCovers x0 (y0 + 1) bs row col = false := by
          by_contra h3
          have := hbelow _ _ _ _ (by simpa using h3)
          omega
        rw [spriteCovers_cons, hc, h2]
        rfl
      · refine .inr ⟨row, col, ?_, ?_⟩
        all_goals
          have h1 := hbelow _ _ _ _ hc
          have h2 : byteCovers x0 y0 b row col = false := by
            by_contra h3
            have := hrow _ _ _ _ (by simpa using h3)
            omega
        · rw [spriteCovers_cons, hc, h2]
          rfl
        · rwa [pixel_plotByte, h2, Bool.xor_false] at hp
    · rintro (h | ⟨row, col, hc, hp⟩)
      · exact .inl (.inl h)
      · rw [spriteCovers_cons] at hc
        by_cases h1 : byteCovers x0 y0 b row col = true
        · exact .inl (.inr ⟨row, col, h1, hp⟩)
        · have h2 : byteCovers x0 y0 b row col = false := by simpa using h1
          rw [h2, Bool.false_xor] at hc
          refine .inr ⟨row, col, hc, ?_⟩
          rw [pixel_plotByte, h2, Bool.xor_false]
          exact hp

end Sys2Proof.Machine
end

