-- ==== Sys2Proof/Laws/Step.lean ====
section
/-! SUPPORT. What a step can do, said once (spec/30_encoding.md R73, spec/60_exceptions.md R205), and what the shared
operations behind the meanings can do. -/

namespace Sys2Proof.Machine

/-- The four cases of a step (R205): Halted; the fetch fails; the word is illegal; an instruction executes. -/
theorem nextAction_cases (s : State) :
    (s.run = .halted ∧ nextAction s = .idle) ∨
    (s.run = .running ∧ 4095 ≤ s.pc.toNat ∧ nextAction s = .error .outOfBoundsAccess) ∨
    (s.run = .running ∧ s.pc.toNat ≤ 4094 ∧
      decodeWord (wordOfBytes (s.mem.read s.pc.toNat) (s.mem.read (s.pc.toNat + 1))) = none ∧
      nextAction s = .error .invalidOpcode) ∨
    (∃ i, s.run = .running ∧ s.pc.toNat ≤ 4094 ∧
      decodeWord (wordOfBytes (s.mem.read s.pc.toNat) (s.mem.read (s.pc.toNat + 1))) = some i ∧
      nextAction s = .execute i) := by
  unfold nextAction fetch
  cases hr : s.run
  · rcases memReadWord_cases s.mem s.pc.toNat with ⟨hm, hp⟩ | ⟨hm, hp⟩
    · rw [hm]
      cases hd : decodeWord (wordOfBytes (s.mem.read s.pc.toNat) (s.mem.read (s.pc.toNat + 1)))
      · exact .inr (.inr (.inl ⟨rfl, hp, rfl, by simp [hd]⟩))
      · exact .inr (.inr (.inr ⟨_, rfl, hp, rfl, by simp [hd]⟩))
    · rw [hm]
      exact .inr (.inl ⟨rfl, hp, rfl⟩)
  · exact .inl ⟨rfl, rfl⟩

/-- The same cases of `step` itself. -/
theorem step_cases (s : State) :
    (s.run = .halted ∧ step s = .next s) ∨
    (s.run = .running ∧ 4095 ≤ s.pc.toNat ∧ step s = raise .outOfBoundsAccess s) ∨
    (s.run = .running ∧ s.pc.toNat ≤ 4094 ∧
      decodeWord (wordOfBytes (s.mem.read s.pc.toNat) (s.mem.read (s.pc.toNat + 1))) = none ∧
      step s = raise .invalidOpcode s) ∨
    (∃ i, s.run = .running ∧ s.pc.toNat ≤ 4094 ∧
      decodeWord (wordOfBytes (s.mem.read s.pc.toNat) (s.mem.read (s.pc.toNat + 1))) = some i ∧
      step s = exec i s) := by
  unfold step
  rcases nextAction_cases s with ⟨h1, h2⟩ | ⟨h1, h2, h3⟩ | ⟨h1, h2, h3, h4⟩ | ⟨i, h1, h2, h3, h4⟩
  · exact .inl ⟨h1, by rw [h2]⟩
  · exact .inr (.inl ⟨h1, h2, by rw [h3]⟩)
  · exact .inr (.inr (.inl ⟨h1, h2, h3, by rw [h4]⟩))
  · exact .inr (.inr (.inr ⟨i, h1, h2, h3, by rw [h4]⟩))

theorem storeResult_eq (x : Nibble) (v : Byte) (s : State) :
    storeResult x v s = .next (s.writeReg x v).advance := rfl

theorem storeResultThenFlag_eq (x : Nibble) (v : Byte) (c : Bool) (s : State) :
    storeResultThenFlag x v c s = .next ((s.writeReg x v).writeReg vf (flagByte c)).advance := rfl

theorem storeFlagThenResult_eq (x : Nibble) (v : Byte) (c : Bool) (s : State) :
    storeFlagThenResult x v c s = .next ((s.writeReg vf (flagByte c)).writeReg x v).advance := rfl

/-- All that a store from `I` can do (R160). -/
theorem storeFromIndex_cases (vs : List Byte) (s : State) :
    (storeFromIndex vs s = .next (s.setMem (s.mem.writeBytes s.index.toNat vs)).advance ∧
      (vs = [] ∨ s.index.toNat + vs.length ≤ 4096)) ∨
    (storeFromIndex vs s = raise .outOfBoundsAccess s ∧ vs ≠ [] ∧ 4096 < s.index.toNat + vs.length) := by
  unfold storeFromIndex State.dataBase
  rcases memWrite_cases s.mem s.index.toNat vs with ⟨h, hr⟩ | ⟨h, hr⟩
  · exact .inl ⟨by rw [h], hr⟩
  · exact .inr ⟨by rw [h], hr⟩

@[simp] theorem length_regRange (x : Nibble) (s : State) : (regRange x s).length = x.toNat + 1 := by
  have := x.isLt
  simp [regRange]
  omega

@[simp] theorem length_bcdDigits (a : Byte) : (bcdDigits a).length = 3 := rfl

/-- The least pressed key, when there is one (R193). -/
theorem State.leastKey_eq_some (s : State) (k : Nibble) (h : s.leastKey = some k) :
    s.keyDown k = true ∧ ∀ j : Nibble, j.toNat < k.toNat → s.keyDown j = false := by
  unfold State.leastKey at h
  obtain ⟨n, hn, rfl⟩ := Option.map_eq_some_iff.1 h
  obtain ⟨hlt, hk, hbelow⟩ := List.findIdx?_eq_some_iff_getElem.1 hn
  rw [Vector.length_toList] at hlt
  have hval : (BitVec.ofNat 4 n).toNat = n := by
    rw [BitVec.toNat_ofNat]
    omega
  refine ⟨by simpa [State.keyDown, hval] using hk, fun j hj => ?_⟩
  rw [hval] at hj
  simpa [State.keyDown] using hbelow j.toNat hj

/-- No key is pressed when there is no least one (R193). -/
theorem State.leastKey_eq_none (s : State) (h : s.leastKey = none) (k : Nibble) : s.keyDown k = false := by
  unfold State.leastKey at h
  rw [Option.map_eq_none_iff, List.findIdx?_eq_none_iff] at h
  exact h _ (Vector.mem_toList_iff.2 (Vector.getElem_mem _))

end Sys2Proof.Machine
end

