-- ==== Sys2Proof/Laws/Exec.lean ====
section
/-! SUPPORT. What executing an instruction can do, said once: every case of every instruction, with its guard and its
next state. Frames, completion and invariants follow from `exec_effect` by cases. -/

namespace Sys2Proof.Machine

/-- The state an error leaves (spec/60_exceptions.md R204). -/
def State.raised (s : State) (e : RunError) : State := { s with run := .halted, err := some e }

@[simp] theorem State.raised_x (s : State) (e : RunError) : (s.raised e).x = s.x := rfl
@[simp] theorem State.raised_index (s : State) (e : RunError) : (s.raised e).index = s.index := rfl
@[simp] theorem State.raised_pc (s : State) (e : RunError) : (s.raised e).pc = s.pc := rfl
@[simp] theorem State.raised_stack (s : State) (e : RunError) : (s.raised e).stack = s.stack := rfl
@[simp] theorem State.raised_sp (s : State) (e : RunError) : (s.raised e).sp = s.sp := rfl
@[simp] theorem State.raised_dt (s : State) (e : RunError) : (s.raised e).dt = s.dt := rfl
@[simp] theorem State.raised_st (s : State) (e : RunError) : (s.raised e).st = s.st := rfl
@[simp] theorem State.raised_disp (s : State) (e : RunError) : (s.raised e).disp = s.disp := rfl
@[simp] theorem State.raised_keys (s : State) (e : RunError) : (s.raised e).keys = s.keys := rfl
@[simp] theorem State.raised_mem (s : State) (e : RunError) : (s.raised e).mem = s.mem := rfl
@[simp] theorem State.raised_run (s : State) (e : RunError) : (s.raised e).run = RunState.halted := rfl
@[simp] theorem State.raised_err (s : State) (e : RunError) : (s.raised e).err = some e := rfl
@[simp] theorem State.raised_params (s : State) (e : RunError) : (s.raised e).params = s.params := rfl
@[simp] theorem State.raised_draws (s : State) (e : RunError) : (s.raised e).draws = s.draws := rfl
@[simp] theorem State.raised_reg (s : State) (e : RunError) (r : Nibble) : (s.raised e).reg r = s.reg r := rfl

/-- The next states of an instruction, one constructor per case. -/
inductive Effect (s : State) : Instr → State → Prop where
  | halt : Effect s .halt s.haltNormally.advance
  | clearScreen : Effect s .clearScreen (s.setDisp Display.blank).advance
  | ret (h : 0 < s.sp.val) : Effect s .ret
      { s with sp := ⟨s.sp.val - 1, by omega⟩, pc := s.stack[s.sp.val - 1]'(by omega) }
  | retEmpty (h : s.sp.val = 0) : Effect s .ret (s.raised .stackUnderflow)
  | jump (nnn : Addr12) : Effect s (.jump nnn) (s.setPc (addrValue nnn))
  | call (nnn : Addr12) (h : s.sp.val < 16) : Effect s (.call nnn)
      { s with stack := s.stack.set s.sp.val s.linkAddress h, sp := ⟨s.sp.val + 1, by omega⟩, pc := addrValue nnn }
  | callFull (nnn : Addr12) (h : s.sp.val = 16) : Effect s (.call nnn) (s.raised .stackOverflow)
  | skipIfEqImm (x : Nibble) (nn : Byte) : Effect s (.skipIfEqImm x nn) (s.skipIf (s.reg x == nn))
  | skipIfNeImm (x : Nibble) (nn : Byte) : Effect s (.skipIfNeImm x nn) (s.skipIf (s.reg x != nn))
  | skipIfEqReg (x y : Nibble) : Effect s (.skipIfEqReg x y) (s.skipIf (s.reg x == s.reg y))
  | skipIfNeReg (x y : Nibble) : Effect s (.skipIfNeReg x y) (s.skipIf (s.reg x != s.reg y))
  | togglePixel (x y : Nibble) : Effect s (.togglePixel x y)
      (s.setDisp (s.disp.toggle (s.reg y).toNat (s.reg x).toNat)).advance
  | setImm (x : Nibble) (nn : Byte) : Effect s (.setImm x nn) (s.writeReg x nn).advance
  | addImm (x : Nibble) (nn : Byte) : Effect s (.addImm x nn) (s.writeReg x (s.reg x + nn)).advance
  | setReg (x y : Nibble) : Effect s (.setReg x y) (s.writeReg x (s.reg y)).advance
  | bitOr (x y : Nibble) : Effect s (.bitOr x y) (s.writeReg x (s.reg x ||| s.reg y)).advance
  | bitAnd (x y : Nibble) : Effect s (.bitAnd x y) (s.writeReg x (s.reg x &&& s.reg y)).advance
  | bitXor (x y : Nibble) : Effect s (.bitXor x y) (s.writeReg x (s.reg x ^^^ s.reg y)).advance
  | addReg (x y : Nibble) : Effect s (.addReg x y)
      ((s.writeReg x (s.reg x + s.reg y)).writeReg vf (flagByte (carryFlag (s.reg x) (s.reg y)))).advance
  | sub (x y : Nibble) : Effect s (.sub x y)
      ((s.writeReg x (s.reg x - s.reg y)).writeReg vf (flagByte (noBorrowFlag (s.reg x) (s.reg y)))).advance
  | rshift (x : Nibble) : Effect s (.rshift x)
      ((s.writeReg vf (flagByte (lsbFlag (s.reg x)))).writeReg x (s.reg x >>> 1)).advance
  | revsub (x y : Nibble) : Effect s (.revsub x y)
      ((s.writeReg x (s.reg y - s.reg x)).writeReg vf (flagByte (revsubFlag (s.reg x) (s.reg y)))).advance
  | lshift (x : Nibble) : Effect s (.lshift x)
      ((s.writeReg vf (flagByte (msbFlag (s.reg x)))).writeReg x (s.reg x <<< 1)).advance
  | setIndex (nnn : Addr12) : Effect s (.setIndex nnn) (s.setIndex (addrValue nnn)).advance
  | jumpR0 (nnn : Addr12) : Effect s (.jumpR0 nnn) (s.setPc (indexedTarget nnn s))
  | random (x : Nibble) (nn : Byte) : Effect s (.random x nn) (s.countDraw.writeReg x (s.randByte &&& nn)).advance
  | draw (x y n : Nibble) (h : n.toNat = 0 ∨ s.index.toNat + n.toNat ≤ 4096) (r : Display × Bool)
      (hr : r = plotSprite (s.reg x).toNat (s.reg y).toNat (s.mem.readBytes s.index.toNat n.toNat) (s.disp, false)) :
      Effect s (.draw x y n) ((s.setDisp r.1).writeReg vf (flagByte r.2)).advance
  | drawOut (x y n : Nibble) (h0 : n.toNat ≠ 0) (h : 4096 < s.index.toNat + n.toNat) :
      Effect s (.draw x y n) (s.raised .outOfBoundsAccess)
  | skipIfKey (x : Nibble) : Effect s (.skipIfKey x) (s.skipIf (s.keyDown (keyIndex x s)))
  | skipIfNotKey (x : Nibble) : Effect s (.skipIfNotKey x) (s.skipIf (!s.keyDown (keyIndex x s)))
  | getTimer (x : Nibble) : Effect s (.getTimer x) (s.writeReg x s.dt).advance
  | awaitKeyFound (x k : Nibble) (hm : s.params.awaitKeyMode = .block) (h : s.leastKey = some k) :
      Effect s (.awaitKey x) (s.writeReg x (k.setWidth 8)).advance
  | awaitKeyWait (x : Nibble) (hm : s.params.awaitKeyMode = .block) (h : s.leastKey = none) :
      Effect s (.awaitKey x) s
  | awaitKeyStub (x : Nibble) (hm : s.params.awaitKeyMode = .stub) : Effect s (.awaitKey x) s.advance
  | setTimer (x : Nibble) : Effect s (.setTimer x) (s.setDelay (s.reg x)).advance
  | setSound (x : Nibble) : Effect s (.setSound x) (s.setSoundTimer (s.reg x)).advance
  | addIndex (x : Nibble) : Effect s (.addIndex x) (s.setIndex (s.index + (s.reg x).setWidth 16)).advance
  | setSprite (x : Nibble) : Effect s (.setSprite x) (s.setIndex (spriteAddress (s.reg x))).advance
  | bcd (x : Nibble) (hm : s.params.bcdMode = .full) (h : s.index.toNat + 3 ≤ 4096) :
      Effect s (.bcd x) (s.setMem (s.mem.writeBytes s.index.toNat (bcdDigits (s.reg x)))).advance
  | bcdOut (x : Nibble) (hm : s.params.bcdMode = .full) (h : 4096 < s.index.toNat + 3) :
      Effect s (.bcd x) (s.raised .outOfBoundsAccess)
  | bcdStub (x : Nibble) (hm : s.params.bcdMode = .stub) : Effect s (.bcd x) s.advance
  | dump (x : Nibble) (h : s.index.toNat + (x.toNat + 1) ≤ 4096) :
      Effect s (.dump x) (s.setMem (s.mem.writeBytes s.index.toNat (regRange x s))).advance
  | dumpOut (x : Nibble) (h : 4096 < s.index.toNat + (x.toNat + 1)) :
      Effect s (.dump x) (s.raised .outOfBoundsAccess)
  | fillLoad (x : Nibble) (hm : s.params.fillMode = .load) (h : s.index.toNat + (x.toNat + 1) ≤ 4096) :
      Effect s (.fill x) (s.setRegs (loadRegs s.x 0 (s.mem.readBytes s.index.toNat (x.toNat + 1)))).advance
  | fillStore (x : Nibble) (hm : s.params.fillMode = .store) (h : s.index.toNat + (x.toNat + 1) ≤ 4096) :
      Effect s (.fill x) (s.setMem (s.mem.writeBytes s.index.toNat (regRange x s))).advance
  | fillOut (x : Nibble) (h : 4096 < s.index.toNat + (x.toNat + 1)) :
      Effect s (.fill x) (s.raised .outOfBoundsAccess)

/-- A store of registers from `I` (R164). -/
theorem storeRegs_cases (x : Nibble) (s : State) :
    (storeFromIndex (regRange x s) s = .next (s.setMem (s.mem.writeBytes s.index.toNat (regRange x s))).advance ∧
      s.index.toNat + (x.toNat + 1) ≤ 4096) ∨
    (storeFromIndex (regRange x s) s = .next (s.raised .outOfBoundsAccess) ∧
      4096 < s.index.toNat + (x.toNat + 1)) := by
  have hlen := length_regRange x s
  rcases storeFromIndex_cases (regRange x s) s with ⟨h1, h2⟩ | ⟨h1, h2, h3⟩
  · refine .inl ⟨h1, ?_⟩
    rcases h2 with h2 | h2
    · simp [h2] at hlen
    · rwa [hlen] at h2
  · exact .inr ⟨h1, by rwa [hlen] at h3⟩

/-- Executing an instruction always answers a next state, and one that `Effect` lists. -/
theorem exec_effect (i : Instr) (s : State) : ∃ t, exec i s = .next t ∧ Effect s i t := by
  cases i
  case ret =>
    rcases s.pop_cases with ⟨h, hp⟩ | ⟨hp, h⟩
    · exact ⟨_, by simp only [exec, execReturn, hp]; rfl, .ret h⟩
    · exact ⟨_, by simp only [exec, execReturn, hp]; rfl, .retEmpty h⟩
  case call nnn =>
    rcases s.push_cases s.linkAddress with ⟨h, hp⟩ | ⟨hp, h⟩
    · exact ⟨_, by simp only [exec, execCall, hp]; rfl, .call nnn h⟩
    · exact ⟨_, by simp only [exec, execCall, hp]; rfl, .callFull nnn h⟩
  case draw x y n =>
    rcases memRead_cases s.mem s.dataBase n.toNat with ⟨hp, h⟩ | ⟨hp, h0, h⟩
    · exact ⟨_, by simp only [exec, execDraw, hp]; rfl, .draw x y n h _ rfl⟩
    · exact ⟨_, by simp only [exec, execDraw, hp]; rfl, .drawOut x y n h0 h⟩
  case awaitKey x =>
    cases hm : s.params.awaitKeyMode
    · cases hk : s.leastKey
      · exact ⟨_, by simp only [exec, execAwaitKey, hm, hk], .awaitKeyWait x hm hk⟩
      · exact ⟨_, by simp only [exec, execAwaitKey, hm, hk], .awaitKeyFound x _ hm hk⟩
    · exact ⟨_, by simp only [exec, execAwaitKey, hm], .awaitKeyStub x hm⟩
  case bcd x =>
    cases hm : s.params.bcdMode
    · rcases storeFromIndex_cases (bcdDigits (s.reg x)) s with ⟨hp, h⟩ | ⟨hp, -, h⟩
      · refine ⟨_, by simp only [exec, execBcd, hm, hp], .bcd x hm ?_⟩
        rcases h with h | h
        · simp [bcdDigits] at h
        · simpa using h
      · exact ⟨_, by simp only [exec, execBcd, hm, hp]; rfl, .bcdOut x hm (by simpa using h)⟩
    · exact ⟨_, by simp only [exec, execBcd, hm], .bcdStub x hm⟩
  case dump x =>
    rcases storeRegs_cases x s with ⟨hp, h⟩ | ⟨hp, h⟩
    · exact ⟨_, by simp only [exec, execDump, hp], .dump x h⟩
    · exact ⟨_, by simp only [exec, execDump, hp], .dumpOut x h⟩
  case fill x =>
    cases hm : s.params.fillMode
    · rcases memRead_cases s.mem s.dataBase (rangeCount x) with ⟨hp, h⟩ | ⟨hp, -, h⟩
      · refine ⟨_, by simp only [exec, execFill, hm, hp]; rfl, .fillLoad x hm ?_⟩
        rcases h with h | h
        · simp [rangeCount] at h
        · exact h
      · exact ⟨_, by simp only [exec, execFill, hm, hp]; rfl, .fillOut x h⟩
    · rcases storeRegs_cases x s with ⟨hp, h⟩ | ⟨hp, h⟩
      · exact ⟨_, by simp only [exec, execFill, hm, hp], .fillStore x hm h⟩
      · exact ⟨_, by simp only [exec, execFill, hm, hp], .fillOut x h⟩
  all_goals exact ⟨_, rfl, by constructor⟩

/-- The inversion of a next state. -/
theorem effect_of_exec {i : Instr} {s t : State} (h : exec i s = .next t) : Effect s i t := by
  obtain ⟨u, hu, he⟩ := exec_effect i s
  rw [hu] at h
  cases h
  exact he

end Sys2Proof.Machine
end

