-- ==== Sys2Proof/Laws/PerInstr.lean ====
section
/-! SUPPORT. One fact of the encoding per instruction: every operand fits its field, and the emitted word carries the
fixed bits of the instruction's row of the opcode map (spec/30_encoding.md R78, R92). -/

namespace Sys2Proof

@[simp] theorem regX_inRange (x : Nibble) : Operand.inRange ⟨.regX, x.toNat⟩ = true := decide_eq_true x.isLt
@[simp] theorem regY_inRange (x : Nibble) : Operand.inRange ⟨.regY, x.toNat⟩ = true := decide_eq_true x.isLt
@[simp] theorem height_inRange (x : Nibble) : Operand.inRange ⟨.height, x.toNat⟩ = true := decide_eq_true x.isLt
@[simp] theorem literal8_inRange (v : Byte) : Operand.inRange ⟨.literal8, v.toNat⟩ = true := decide_eq_true v.isLt
@[simp] theorem address12_inRange (v : Addr12) : Operand.inRange ⟨.address12, v.toNat⟩ = true :=
  decide_eq_true v.isLt

namespace Laws.EncodesRow

/-- Every operand fits its field (R72), and the word emitted (R92) matches the instruction's row (R78). -/
def Statement (i : Instr) : Prop := i.wellFormed = true ∧ encode i &&& i.mask = i.pattern

theorem halt : Statement .halt := ⟨rfl, by decide⟩

theorem clearScreen : Statement .clearScreen := ⟨rfl, by decide⟩

theorem ret : Statement .ret := ⟨rfl, by decide⟩

theorem jump (nnn : Addr12) : Statement (.jump nnn) :=
  ⟨by simp [Instr.wellFormed, Instr.operands], (layoutA_mask _ _).trans rfl⟩

theorem call (nnn : Addr12) : Statement (.call nnn) :=
  ⟨by simp [Instr.wellFormed, Instr.operands], (layoutA_mask _ _).trans rfl⟩

theorem skipIfEqImm (x : Nibble) (nn : Byte) : Statement (.skipIfEqImm x nn) :=
  ⟨by simp [Instr.wellFormed, Instr.operands], (layoutXI_mask _ _ _).trans rfl⟩

theorem skipIfNeImm (x : Nibble) (nn : Byte) : Statement (.skipIfNeImm x nn) :=
  ⟨by simp [Instr.wellFormed, Instr.operands], (layoutXI_mask _ _ _).trans rfl⟩

theorem skipIfEqReg (x y : Nibble) : Statement (.skipIfEqReg x y) :=
  ⟨by simp [Instr.wellFormed, Instr.operands], (layoutXY_mask _ _ _ _).trans rfl⟩

theorem togglePixel (x y : Nibble) : Statement (.togglePixel x y) :=
  ⟨by simp [Instr.wellFormed, Instr.operands], (layoutXY_mask _ _ _ _).trans rfl⟩

theorem setImm (x : Nibble) (nn : Byte) : Statement (.setImm x nn) :=
  ⟨by simp [Instr.wellFormed, Instr.operands], (layoutXI_mask _ _ _).trans rfl⟩

theorem addImm (x : Nibble) (nn : Byte) : Statement (.addImm x nn) :=
  ⟨by simp [Instr.wellFormed, Instr.operands], (layoutXI_mask _ _ _).trans rfl⟩

theorem setReg (x y : Nibble) : Statement (.setReg x y) :=
  ⟨by simp [Instr.wellFormed, Instr.operands], (layoutXY_mask _ _ _ _).trans rfl⟩

theorem bitOr (x y : Nibble) : Statement (.bitOr x y) :=
  ⟨by simp [Instr.wellFormed, Instr.operands], (layoutXY_mask _ _ _ _).trans rfl⟩

theorem bitAnd (x y : Nibble) : Statement (.bitAnd x y) :=
  ⟨by simp [Instr.wellFormed, Instr.operands], (layoutXY_mask _ _ _ _).trans rfl⟩

theorem bitXor (x y : Nibble) : Statement (.bitXor x y) :=
  ⟨by simp [Instr.wellFormed, Instr.operands], (layoutXY_mask _ _ _ _).trans rfl⟩

theorem addReg (x y : Nibble) : Statement (.addReg x y) :=
  ⟨by simp [Instr.wellFormed, Instr.operands], (layoutXY_mask _ _ _ _).trans rfl⟩

theorem sub (x y : Nibble) : Statement (.sub x y) :=
  ⟨by simp [Instr.wellFormed, Instr.operands], (layoutXY_mask _ _ _ _).trans rfl⟩

theorem rshift (x : Nibble) : Statement (.rshift x) :=
  ⟨by simp [Instr.wellFormed, Instr.operands], (layoutXY_mask _ _ _ _).trans rfl⟩

theorem revsub (x y : Nibble) : Statement (.revsub x y) :=
  ⟨by simp [Instr.wellFormed, Instr.operands], (layoutXY_mask _ _ _ _).trans rfl⟩

theorem lshift (x : Nibble) : Statement (.lshift x) :=
  ⟨by simp [Instr.wellFormed, Instr.operands], (layoutXY_mask _ _ _ _).trans rfl⟩

theorem skipIfNeReg (x y : Nibble) : Statement (.skipIfNeReg x y) :=
  ⟨by simp [Instr.wellFormed, Instr.operands], (layoutXY_mask _ _ _ _).trans rfl⟩

theorem setIndex (nnn : Addr12) : Statement (.setIndex nnn) :=
  ⟨by simp [Instr.wellFormed, Instr.operands], (layoutA_mask _ _).trans rfl⟩

theorem jumpR0 (nnn : Addr12) : Statement (.jumpR0 nnn) :=
  ⟨by simp [Instr.wellFormed, Instr.operands], (layoutA_mask _ _).trans rfl⟩

theorem random (x : Nibble) (nn : Byte) : Statement (.random x nn) :=
  ⟨by simp [Instr.wellFormed, Instr.operands], (layoutXI_mask _ _ _).trans rfl⟩

theorem draw (x y n : Nibble) : Statement (.draw x y n) :=
  ⟨by simp [Instr.wellFormed, Instr.operands], (layoutXYN_mask _ _ _ _).trans rfl⟩

theorem skipIfKey (x : Nibble) : Statement (.skipIfKey x) :=
  ⟨by simp [Instr.wellFormed, Instr.operands], (layoutXS_mask _ _ _).trans rfl⟩

theorem skipIfNotKey (x : Nibble) : Statement (.skipIfNotKey x) :=
  ⟨by simp [Instr.wellFormed, Instr.operands], (layoutXS_mask _ _ _).trans rfl⟩

theorem getTimer (x : Nibble) : Statement (.getTimer x) :=
  ⟨by simp [Instr.wellFormed, Instr.operands], (layoutXS_mask _ _ _).trans rfl⟩

theorem awaitKey (x : Nibble) : Statement (.awaitKey x) :=
  ⟨by simp [Instr.wellFormed, Instr.operands], (layoutXS_mask _ _ _).trans rfl⟩

theorem setTimer (x : Nibble) : Statement (.setTimer x) :=
  ⟨by simp [Instr.wellFormed, Instr.operands], (layoutXS_mask _ _ _).trans rfl⟩

theorem setSound (x : Nibble) : Statement (.setSound x) :=
  ⟨by simp [Instr.wellFormed, Instr.operands], (layoutXS_mask _ _ _).trans rfl⟩

theorem addIndex (x : Nibble) : Statement (.addIndex x) :=
  ⟨by simp [Instr.wellFormed, Instr.operands], (layoutXS_mask _ _ _).trans rfl⟩

theorem setSprite (x : Nibble) : Statement (.setSprite x) :=
  ⟨by simp [Instr.wellFormed, Instr.operands], (layoutXS_mask _ _ _).trans rfl⟩

theorem bcd (x : Nibble) : Statement (.bcd x) :=
  ⟨by simp [Instr.wellFormed, Instr.operands], (layoutXS_mask _ _ _).trans rfl⟩

theorem dump (x : Nibble) : Statement (.dump x) :=
  ⟨by simp [Instr.wellFormed, Instr.operands], (layoutXS_mask _ _ _).trans rfl⟩

theorem fill (x : Nibble) : Statement (.fill x) :=
  ⟨by simp [Instr.wellFormed, Instr.operands], (layoutXS_mask _ _ _).trans rfl⟩

end Laws.EncodesRow

end Sys2Proof
end

