-- ==== Sys2Proof/Tests/Slice0.lean ====
section
/-! SUPPORT. Tests of the model on words, bytes and results taken from the spec (spec/95_test_vectors.md and the rules
it cites), one step each, and for every statement with hypotheses a concrete case that meets them. -/

namespace Sys2Proof.Tests

open Sys2Proof.Machine Sys2Proof.Claims

/-- The reset state with the pc at 0x300, as the vectors of spec/95_test_vectors.md section 2.3 have it. -/
def start : State := { State.reset with pc := 0x300 }

/-- Registers set one after the other. -/
def State.withRegs (s : State) (rs : List (Nibble × Byte)) : State :=
  rs.foldl (fun s r => s.writeReg r.1 r.2) s

/-- Memory bytes set from an address up. -/
def State.withBytes (s : State) (a : Nat) (bs : List Byte) : State := s.setMem (s.mem.writeBytes a bs)

/-- Pixels lit, each named (column, row) as in section 2.6. -/
def State.withPixels (s : State) (ps : List (Nat × Nat)) : State :=
  ps.foldl (fun s p => s.setDisp (s.disp.toggle p.2 p.1)) s

/-- The lit pixels of a row, by column. -/
def litInRow (s : State) (row : Nat) : List Nat := (List.range 64).filter (s.disp.pixel row)

/-- One step of the state with the word placed at its pc. -/
def stepOn (w : Nat) (s : State) : Option State :=
  match step (s.withFetchWord 16 w) with
  | .next t => some t
  | .fault _ => none
  | .refused _ => none

/-- One step of the state as it is. -/
def stepped (s : State) : Option State :=
  match step s with
  | .next t => some t
  | .fault _ => none
  | .refused _ => none

/-! ## Ill-formed operands -/

/-- Each field's check refuses the first number above its range and admits the last one in it (R72). -/
theorem test_regX_range :
    (Operand.mk .regX 16).inRange = false ∧ (Operand.mk .regX 15).inRange = true := by decide

theorem test_regY_range :
    (Operand.mk .regY 16).inRange = false ∧ (Operand.mk .regY 15).inRange = true := by decide

theorem test_height_range :
    (Operand.mk .height 16).inRange = false ∧ (Operand.mk .height 15).inRange = true := by decide

theorem test_literal8_range :
    (Operand.mk .literal8 256).inRange = false ∧ (Operand.mk .literal8 255).inRange = true := by decide

theorem test_address12_range :
    (Operand.mk .address12 4096).inRange = false ∧ (Operand.mk .address12 4095).inRange = true := by decide

/-! ## Decoding: words written out from the spec's encodings (R75, R78; section 2.1) -/

theorem test_decode_control :
    decodeTableWord 16 0x0000 = some .halt ∧
    decodeTableWord 16 0x00EE = some .ret ∧
    decodeTableWord 16 0x1ABC = some (.jump 0xABC) ∧
    decodeTableWord 16 0x2FFF = some (.call 0xFFF) ∧
    decodeTableWord 16 0xB300 = some (.jumpR0 0x300) := by decide

theorem test_decode_skips :
    decodeTableWord 16 0x3A7F = some (.skipIfEqImm 10 0x7F) ∧
    decodeTableWord 16 0x4A10 = some (.skipIfNeImm 10 0x10) ∧
    decodeTableWord 16 0x5120 = some (.skipIfEqReg 1 2) ∧
    decodeTableWord 16 0x9AB0 = some (.skipIfNeReg 10 11) := by decide

theorem test_decode_moves_and_arithmetic :
    decodeTableWord 16 0x6AFF = some (.setImm 10 0xFF) ∧
    decodeTableWord 16 0x71FE = some (.addImm 1 0xFE) ∧
    decodeTableWord 16 0x8120 = some (.setReg 1 2) ∧
    decodeTableWord 16 0x8124 = some (.addReg 1 2) ∧
    decodeTableWord 16 0x8125 = some (.sub 1 2) ∧
    decodeTableWord 16 0x8127 = some (.revsub 1 2) ∧
    decodeTableWord 16 0xC10F = some (.random 1 0x0F) := by decide

theorem test_decode_logic_and_shifts :
    decodeTableWord 16 0x8121 = some (.bitOr 1 2) ∧
    decodeTableWord 16 0x8122 = some (.bitAnd 1 2) ∧
    decodeTableWord 16 0x8AB3 = some (.bitXor 10 11) ∧
    decodeTableWord 16 0x8AB6 = some (.rshift 10) ∧
    decodeTableWord 16 0x8A06 = some (.rshift 10) ∧
    decodeTableWord 16 0x8ABE = some (.lshift 10) := by decide

theorem test_decode_index_and_memory :
    decodeTableWord 16 0xA210 = some (.setIndex 0x210) ∧
    decodeTableWord 16 0xF21E = some (.addIndex 2) ∧
    decodeTableWord 16 0xFA29 = some (.setSprite 10) ∧
    decodeTableWord 16 0xF033 = some (.bcd 0) ∧
    decodeTableWord 16 0xF155 = some (.dump 1) ∧
    decodeTableWord 16 0xF265 = some (.fill 2) := by decide

theorem test_decode_display :
    decodeTableWord 16 0x00E0 = some .clearScreen ∧
    decodeTableWord 16 0x5121 = some (.togglePixel 1 2) ∧
    decodeTableWord 16 0xD12F = some (.draw 1 2 15) ∧
    decodeTableWord 16 0xD120 = some (.draw 1 2 0) := by decide

theorem test_decode_keys_and_timers :
    decodeTableWord 16 0xE09E = some (.skipIfKey 0) ∧
    decodeTableWord 16 0xEFA1 = some (.skipIfNotKey 15) ∧
    decodeTableWord 16 0xF30A = some (.awaitKey 3) ∧
    decodeTableWord 16 0xF107 = some (.getTimer 1) ∧
    decodeTableWord 16 0xF015 = some (.setTimer 0) ∧
    decodeTableWord 16 0xF018 = some (.setSound 0) := by decide

/-- The words section 2.1 calls Invalid. -/
theorem test_decode_invalid : [0x00E1, 0x00FF, 0x0001, 0x0123, 0x0FFF, 0x5122, 0x512F, 0x8AB8, 0x8AB9, 0x8ABA, 0x8ABB, 0x8ABC,
    0x8ABD, 0x8ABF, 0x9AB1, 0xE09F, 0xE0A0, 0xE000, 0xF000, 0xF008, 0xF01F, 0xF075, 0xF0FF].all (fun w => (decodeTableWord 16 w).isNone) = true := by decide

/-- The bytes are taken high byte first, and the bytes after the instruction are left (R54, R70). -/
theorem test_decode_bytes :
    (decodeBytes [0x6A, 0xFF, 0x12]).toOption = some (.setImm 10 0xFF, [0x12]) := by decide

/-! ## One step of each instruction (sections 2.2 to 2.7) -/

theorem test_halt :
    (stepOn 0x0000 start).map (fun t => (t.run, t.err, t.pc)) =
      some (.halted, none, 0x302) := by decide

theorem test_jump_to_itself :
    (stepOn 0x1300 start).map (fun t => (t.run, t.pc)) =
      some (.running, 0x300) := by decide

theorem test_jump_far :
    (stepOn 0x1FFF start).map (fun t => t.pc) =
      some 0xFFF := by decide

theorem test_call :
    (stepOn 0x2400 { start with sp := 15 }).map (fun t => (t.stack[15]'(by decide), t.sp.val, t.pc)) =
      some (0x302, 16, 0x400) := by decide

theorem test_call_full :
    (stepOn 0x2400 { start with sp := 16 }).map (fun t => (t.err, t.run, t.sp.val, t.pc)) =
      some (some .stackOverflow, .halted, 16, 0x300) := by decide

theorem test_return :
    (stepOn 0x00EE { start with sp := 1, stack := start.stack.set 0 0x206 }).map (fun t => (t.sp.val, t.pc, t.stack[0]'(by decide))) =
      some (0, 0x206, 0x206) := by decide

theorem test_return_empty :
    (stepOn 0x00EE start).map (fun t => (t.err, t.run, t.pc)) =
      some (some .stackUnderflow, .halted, 0x300) := by decide

theorem test_jump_r0 :
    (stepOn 0xBFFF (State.withRegs start [(0, 0xFF)])).map (fun t => t.pc) =
      some 4350 := by decide

theorem test_jump_r0_uses_register_0 :
    (stepOn 0xB300 (State.withRegs start [(0, 4), (3, 9)])).map (fun t => t.pc) =
      some 0x304 := by decide

theorem test_skip_if_eq_imm :
    (stepOn 0x3A10 (State.withRegs start [(10, 0x10)])).map (fun t => t.pc) =
      some 0x304 := by decide

theorem test_skip_if_eq_imm_not :
    (stepOn 0x3A10 (State.withRegs start [(10, 0x11)])).map (fun t => t.pc) =
      some 0x302 := by decide

theorem test_skip_if_ne_imm :
    (stepOn 0x4A10 (State.withRegs start [(10, 0x11)])).map (fun t => t.pc) =
      some 0x304 := by decide

theorem test_skip_if_ne_imm_not :
    (stepOn 0x4A10 (State.withRegs start [(10, 0x10)])).map (fun t => t.pc) =
      some 0x302 := by decide

theorem test_skip_if_eq_reg :
    (stepOn 0x5AA0 (State.withRegs start [(10, 0x77)])).map (fun t => t.pc) =
      some 0x304 := by decide

theorem test_skip_if_eq_reg_not :
    (stepOn 0x5AB0 (State.withRegs start [(10, 1), (11, 2)])).map (fun t => t.pc) =
      some 0x302 := by decide

theorem test_skip_if_ne_reg :
    (stepOn 0x9AB0 (State.withRegs start [(10, 1), (11, 2)])).map (fun t => t.pc) =
      some 0x304 := by decide

theorem test_skip_if_ne_reg_not :
    (stepOn 0x9AA0 (State.withRegs start [(10, 0x77)])).map (fun t => t.pc) =
      some 0x302 := by decide

theorem test_set_imm :
    (stepOn 0x6F07 start).map (fun t => (t.reg 15, t.pc)) =
      some (7, 0x302) := by decide

theorem test_add_imm_wraps :
    (stepOn 0x7101 (State.withRegs start [(1, 0xFF), (15, 1)])).map (fun t => (t.reg 1, t.reg 15)) =
      some (0, 1) := by decide

theorem test_add_imm_to_vf :
    (stepOn 0x7F01 (State.withRegs start [(15, 0xFF)])).map (fun t => t.reg 15) =
      some 0 := by decide

theorem test_set_reg :
    (stepOn 0x8120 (State.withRegs start [(2, 0x5A)])).map (fun t => t.reg 1) =
      some 0x5A := by decide

theorem test_or :
    (stepOn 0x8121 (State.withRegs start [(1, 0xF0), (2, 0x0F), (15, 1)])).map (fun t => (t.reg 1, t.reg 15)) =
      some (0xFF, 1) := by decide

theorem test_and :
    (stepOn 0x8122 (State.withRegs start [(1, 0xF0), (2, 0x3C)])).map (fun t => t.reg 1) =
      some 0x30 := by decide

theorem test_xor :
    (stepOn 0x8123 (State.withRegs start [(1, 0xF0), (2, 0x3C)])).map (fun t => t.reg 1) =
      some 0xCC := by decide

theorem test_xor_itself :
    (stepOn 0x8113 (State.withRegs start [(1, 0xAB)])).map (fun t => t.reg 1) =
      some 0 := by decide

theorem test_add_reg_carry :
    (stepOn 0x8124 (State.withRegs start [(1, 200), (2, 100)])).map (fun t => (t.reg 1, t.reg 15)) =
      some (44, 1) := by decide

theorem test_add_reg_to_vf :
    (stepOn 0x8F14 (State.withRegs start [(15, 200), (1, 100)])).map (fun t => (t.reg 15, t.reg 1)) =
      some (1, 100) := by decide

theorem test_sub_borrow :
    (stepOn 0x8125 (State.withRegs start [(1, 5), (2, 7)])).map (fun t => (t.reg 1, t.reg 15)) =
      some (254, 0) := by decide

theorem test_sub_equal :
    (stepOn 0x8125 (State.withRegs start [(1, 7), (2, 7)])).map (fun t => (t.reg 1, t.reg 15)) =
      some (0, 1) := by decide

theorem test_rshift :
    (stepOn 0x83A6 (State.withRegs start [(3, 0x05), (10, 0xFF)])).map (fun t => (t.reg 3, t.reg 15, t.reg 10)) =
      some (0x02, 1, 0xFF) := by decide

theorem test_rshift_vf :
    (stepOn 0x8F06 (State.withRegs start [(15, 0xFF)])).map (fun t => t.reg 15) =
      some 0x7F := by decide

theorem test_revsub :
    (stepOn 0x8127 (State.withRegs start [(1, 5), (2, 7)])).map (fun t => (t.reg 1, t.reg 15)) =
      some (2, 1) := by decide

theorem test_revsub_equal :
    (stepOn 0x8127 (State.withRegs start [(1, 7), (2, 7)])).map (fun t => (t.reg 1, t.reg 15)) =
      some (0, 0) := by decide

theorem test_lshift :
    (stepOn 0x830E (State.withRegs start [(3, 0x81)])).map (fun t => (t.reg 3, t.reg 15)) =
      some (0x02, 1) := by decide

theorem test_lshift_vf :
    (stepOn 0x8F0E (State.withRegs start [(15, 0x81)])).map (fun t => t.reg 15) =
      some 0x02 := by decide

/-- C10F leaves the draw masked with 0x0F, whatever the draw. -/
theorem test_random_masks_the_draw :
    (stepOn 0xC10F start).map (fun t => (t.reg 1, t.draws)) =
      some (Config.randByte 0 &&& 0x0F, 1) := rfl

theorem test_set_index :
    (stepOn 0xAFFF start).map (fun t => t.index) =
      some 0x0FFF := by decide

theorem test_add_index_wraps :
    (stepOn 0xF21E (State.withRegs { start with index := 0xFFFF } [(2, 1), (15, 7)])).map (fun t => (t.index, t.reg 15, t.err)) =
      some (0, 7, none) := by decide

theorem test_add_index_past_memory :
    (stepOn 0xF21E (State.withRegs { start with index := 0x0FFF } [(2, 1)])).map (fun t => (t.index, t.err)) =
      some (0x1000, none) := by decide

theorem test_set_sprite :
    (stepOn 0xFA29 (State.withRegs start [(10, 0x1A)])).map (fun t => t.index) =
      some 50 := by decide

/-- Two registers, not the third (the vector's 0x300 moved off the instruction's own bytes). -/
theorem test_dump :
    (stepOn 0xF155 (State.withRegs { start with index := 0x400 } [(0, 1), (1, 2), (2, 3)])).map (fun t => (t.mem.read 0x400, t.mem.read 0x401, t.mem.read 0x402, t.index)) =
      some (1, 2, 0, 0x400) := by decide

theorem test_dump_out :
    (stepOn 0xF155 (State.withRegs { start with index := 4095 } [(0, 1), (1, 2)])).map (fun t => (t.err, t.mem.read 4095, t.pc)) =
      some (some .outOfBoundsAccess, 0, 0x300) := by decide

/-- FF65 at I = 0 loads the default FONT. -/
theorem test_fill_font :
    (stepOn 0xFF65 start).map (fun t => (t.reg 0, t.reg 1, t.reg 4, t.reg 5, t.reg 14, t.reg 15)) =
      some (0xF0, 0x90, 0xF0, 0x20, 0xF0, 0xF0) := by decide

theorem test_fill_store :
    (stepOn 0xF265 (State.withRegs { start with index := 0x400, params := { start.params with fillMode := .store } } [(0, 7), (1, 8), (2, 9)])).map (fun t => ([t.mem.read 0x400, t.mem.read 0x401, t.mem.read 0x402], t.reg 2)) =
      some ([7, 8, 9], 9) := by decide

theorem test_bcd :
    (stepOn 0xF033 (State.withRegs { start with index := 4093 } [(0, 234)])).map (fun t => [t.mem.read 4093, t.mem.read 4094, t.mem.read 4095]) =
      some [2, 3, 4] := by decide

theorem test_bcd_out :
    (stepOn 0xF033 (State.withRegs { start with index := 4094 } [(0, 234)])).map (fun t => (t.err, t.mem.read 4094)) =
      some (some .outOfBoundsAccess, 0) := by decide

theorem test_clear_screen :
    (stepOn 0x00E0 (State.withPixels (State.withRegs start [(15, 1)]) [(3, 4), (63, 31)])).map (fun t => (t.disp == start.disp, t.reg 15, t.pc)) =
      some (true, 1, 0x302) := by decide

theorem test_toggle_pixel_corner :
    (stepOn 0x5011 (State.withRegs start [(0, 63), (1, 31)])).map (fun t => (litInRow t 31, litInRow t 0)) =
      some ([63], []) := by decide

theorem test_toggle_pixel_off_screen :
    (stepOn 0x5011 (State.withRegs start [(0, 64), (1, 0)])).map (fun t => (t.disp == start.disp, t.err)) =
      some (true, none) := by decide

theorem test_draw_clips :
    (stepOn 0xD011 (State.withBytes (State.withRegs { start with index := 0x400 } [(0, 60), (1, 30)]) 0x400 [0xFF])).map (fun t => (litInRow t 30, t.reg 15)) =
      some ([60, 61, 62, 63], 0) := by decide

/-- Bit 7 is leftmost: 0x81 at (5, 5) turns the lit (5, 5) off and lights (12, 5). -/
theorem test_draw_collides :
    (stepOn 0xD011 (State.withPixels (State.withBytes (State.withRegs { start with index := 0x400 } [(0, 5), (1, 5)]) 0x400 [0x81]) [(5, 5)])).map (fun t => (litInRow t 5, t.reg 15)) =
      some ([12], 1) := by decide

theorem test_skip_if_key :
    (stepOn 0xE29E (State.withRegs (setKey 5 true start) [(2, 0x15)])).map (fun t => t.pc) =
      some 0x304 := by decide

theorem test_skip_if_not_key :
    (stepOn 0xE2A1 (State.withRegs (setKey 5 true start) [(2, 5)])).map (fun t => t.pc) =
      some 0x302 := by decide

theorem test_await_key :
    (stepOn 0xF30A (setKey 9 true (setKey 7 true start))).map (fun t => (t.reg 3, t.pc)) =
      some (7, 0x302) := by decide

theorem test_await_key_waits :
    (stepOn 0xF30A start).map (fun t => (t.pc, t.run)) =
      some (0x300, .running) := by decide

theorem test_get_timer :
    (stepOn 0xF107 { start with dt := 3 }).map (fun t => t.reg 1) =
      some 3 := by decide

theorem test_set_timer :
    (stepOn 0xF015 (State.withRegs start [(0, 3)])).map (fun t => t.dt) =
      some 3 := by decide

theorem test_set_sound :
    (stepOn 0xF018 (State.withRegs start [(0, 30)])).map (fun t => t.st) =
      some 30 := by decide

/-! ## Fetch, errors, host operations (section 2.2, 2.7; 60_exceptions.md R213, 70_reset_and_hazards.md R232) -/

theorem test_fetch_last_word :
    (stepOn 0x6001 { start with pc := 4094 }).map (fun t => (t.reg 0, t.pc, t.run)) =
      some (1, 4096, .running) := by decide

theorem test_fetch_at_4095 :
    (stepped { start with pc := 4095 }).map (fun t => (t.err, t.run, t.pc)) =
      some (some .outOfBoundsAccess, .halted, 4095) := by decide

theorem test_fetch_odd_pc :
    (stepOn 0x6A07 { start with pc := 0x201 }).map (fun t => (t.reg 10, t.pc)) = some (7, 0x203) := by decide

theorem test_invalid_opcode :
    (stepOn 0x8AB8 start).map (fun t => (t.err, t.run, t.pc)) =
      some (some .invalidOpcode, .halted, 0x300) := by decide

theorem test_halted_step_is_nothing :
    stepped { start with run := .halted, err := some .invalidOpcode } =
      some { start with run := .halted, err := some .invalidOpcode } := by decide

theorem test_tick :
    (tickTimers { start with run := .halted, dt := 3, st := 1 }).dt = 2 ∧
      (tickTimers { start with dt := 3, st := 1 }).st = 0 ∧ (tickTimers start).dt = 0 := by decide

theorem test_set_key :
    (setKey 9 true start).keyDown 9 = true ∧ (setKey 9 false (setKey 9 true start)).keyDown 9 = false := by decide

theorem test_host_reads :
    hostReadMem start 0 = some 0xF0 ∧ hostReadMem start 4096 = none ∧ hostReadPixel start 31 63 = some false ∧
      hostReadPixel start 32 0 = none ∧ hostReadReg start 3 = 0 ∧ hostReadFlag start = (.running, none) ∧
      errCode (some .invalidOpcode) = 4 := by decide

/-- R36, with the last byte of the default FONT (R35). -/
theorem test_reset :
    State.reset.pc = 0x200 ∧ State.reset.run = .running ∧ State.reset.err = none ∧ State.reset.mem.wf = true ∧
      State.reset.mem.read 79 = 0x80 ∧ State.reset.mem.read 80 = 0 := by decide

/-- Two ticks between set-timer and get-timer: P6's schedule in small, as host events. -/
theorem test_run_events :
    (match runEvents [.step, .tick, .tick]
        (State.withRegs { start with mem := [(0x300, 0xF0), (0x301, 0x15)] } [(0, 3)]) with
      | .next t => some t.dt
      | .fault _ => none
      | .refused _ => none) = some 1 := by decide

/-! ## Encoder and assembler (section 2.1, S1, S3, S7, S9; 30_encoding.md R90 to R108) -/

/-- The bytes of an instruction statement, if it encodes, with `spr` at 0x20E as the vectors have it. -/
def encoded (name : InstrName) (args : List Argument) : Option (List Byte) :=
  (encodeStatement [⟨"spr", 0x20E⟩] (.instr name) args).toOption

/-- The error of a statement, if it does not encode. -/
def encodeError (m : Mnemonic) (args : List Argument) : Option AsmErrorKind :=
  match encodeStatement [⟨"spr", 0x20E⟩] m args with
  | .ok _ => none
  | .error e => some e

theorem test_encode_words_1 :
    encoded .jump [.literal 0x204] = some [0x12, 0x04] ∧
    encoded .jump [.literal 0x300, .register 0] = some [0xB3, 0x00] ∧
    encoded .set [.register 10, .literal 255] = some [0x6A, 0xFF] ∧
    encoded .set [.register 1, .register 2] = some [0x81, 0x20] := by decide

theorem test_encode_words_2 :
    encoded .draw [.register 0, .register 1, .literal 15] = some [0xD0, 0x1F] ∧
    encoded .rshift [.register 3] = some [0x83, 0x06] ∧
    encoded .setIndex [.label "spr"] = some [0xA2, 0x0E] ∧
    encoded .call [.literal 4095] = some [0x2F, 0xFF] := by decide

theorem test_encode_errors_1 :
    encodeError (.instr .jump) [.literal 0x300, .register 1] = some .wrongOperandKind ∧
    encodeError (.instr .set) [.register 10, .literal 256] = some .rangeError ∧
    encodeError (.instr .set) [.literal 1, .literal 2] = some .wrongOperandKind ∧
    encodeError (.instr .set) [.register 1] = some .wrongArity ∧
    encodeError (.instr .draw) [.register 0, .register 1, .literal 16] = some .rangeError := by decide

theorem test_encode_errors_2 :
    encodeError (.instr .setIndex) [.label "nowhere"] = some .undefinedLabel ∧
    encodeError .data [.literal 256] = some .rangeError ∧
    encodeError .data [] = some .wrongArity ∧
    encodeError (.instr .halt) [.literal 0] = some .wrongArity := by decide

/-- A line of tokens: the mnemonic, the arguments with commas between, the line break. -/
def lineOf (n : Nat) (m : Mnemonic) (args : List Argument) : List Token :=
  ⟨.mnemonic m, n⟩ :: ((args.map fun a => Token.mk (.argument a) n).intersperse ⟨.comma, n⟩) ++ [⟨.lineBreak, n⟩]

/-- A label definition's line. -/
def labelLine (n : Nat) (name : String) : List Token := [⟨.labelDef name, n⟩, ⟨.lineBreak, n⟩]

/-- The image, or the error's kind and line. -/
def image (tokens : List Token) : Option (List Byte) × Option (AsmErrorKind × Nat) :=
  match assemble none (tokens ++ [⟨.endMarker, 99⟩]) with
  | .ok bytes => (some bytes, none)
  | .error e => (none, some (e.kind, e.line))

/-- S1: set R0,10; add R0,5; halt. -/
theorem test_assemble_s1 :
    image (lineOf 1 (.instr .set) [.register 0, .literal 10] ++ lineOf 2 (.instr .add) [.register 0, .literal 5] ++
      lineOf 3 (.instr .halt) []) = (some [0x60, 0x0A, 0x70, 0x05, 0x00, 0x00], none) := by decide

/-- S3: a label after data 1,2,3 is 3 bytes on. -/
theorem test_pass1_s3 :
    (pass1 none 0x200 [] (splitStatements none (lineOf 1 .data [.literal 1, .literal 2, .literal 3] ++
      labelLine 2 "next"))).toOption = some [⟨"next", 0x203⟩] := by decide

/-- A label's address has 16 bits (R101): 0xFFFF is recorded, 0x10000 is a RangeError (log entry 33). -/
theorem test_pass1_address_width :
    (pass1 none 0xFFFF [] [.labelDef "top" 1]).toOption = some [⟨"top", 0xFFFF⟩] ∧
    (match pass1 none 0x10000 [] [.labelDef "top" 1] with
      | .ok _ => none
      | .error e => some e) = some ⟨.rangeError, 1⟩ := by decide

/-- S7: a second definition of a label fails, with no output. -/
theorem test_assemble_s7 :
    image (labelLine 1 "start" ++ labelLine 2 "start") = (none, some (.duplicateLabel, 2)) := by decide

/-- S9: a jump to a later label. -/
theorem test_assemble_s9 :
    image (lineOf 1 (.instr .jump) [.label "end"] ++ lineOf 2 (.instr .set) [.register 0, .literal 1] ++
      labelLine 3 "end" ++ lineOf 4 (.instr .halt) []) =
      (some [0x12, 0x04, 0x60, 0x01, 0x00, 0x00], none) := by decide

/-- A missing comma, a trailing comma and a ninth argument are errors of the collector (R102). -/
theorem test_collect_errors :
    (image [⟨.mnemonic (.instr .set), 1⟩, ⟨.argument (.register 0), 1⟩, ⟨.argument (.literal 1), 1⟩,
      ⟨.lineBreak, 1⟩]).2 = some (.expectedComma, 1) ∧
    (image [⟨.mnemonic .data, 1⟩, ⟨.argument (.literal 1), 1⟩, ⟨.comma, 1⟩, ⟨.lineBreak, 1⟩]).2 =
      some (.expectedComma, 1) ∧
    (image (lineOf 1 .data (List.replicate 9 (.literal 1)))).2 = some (.tooManyArguments, 1) := by decide

/-! ## Cases that meet the statements' hypotheses, at the boundaries of each clause -/

theorem witness_DecodeEncodeRoundTrip :
    (Instr.draw 15 15 15).wellFormed = true ∧ (Instr.jump 0xFFF).wellFormed = true ∧
    (Instr.setImm 15 0xFF).wellFormed = true ∧ Instr.halt.wellFormed = true := by decide

theorem witness_EncodeDecodeReturnsWord :
    decodeWord 0x8AB6 = some (.rshift 10) ∧ decodeWord 0xFF65 = some (.fill 15) := by decide

theorem witness_DecoderMatchesTheOpcodeMap :
    decodeWord 0x5FF1 = some (.togglePixel 15 15) ∧ 0x5FF1 &&& (Instr.togglePixel 0 0).mask =
      (Instr.togglePixel 0 0).pattern ∧ 0x8FFE &&& (Instr.lshift 0).mask = (Instr.lshift 0).pattern := by decide

theorem witness_IllegalWordsAreTheTables :
    illegalWord 0x0001 ∧ illegalWord 0x5FF2 ∧ illegalWord 0x8AB8 ∧ illegalWord 0x9AB1 ∧ illegalWord 0xE09F ∧
    illegalWord 0xFFFF ∧ ¬ illegalWord 0x00E0 ∧ ¬ illegalWord 0xD000 := by
  refine ⟨?_, ?_, ?_, ?_, ?_, ?_, ?_, ?_⟩ <;> simp [illegalWord]

theorem witness_StepRunsDecodedInstruction :
    ∃ s : State, s.run = .running ∧ s.pc.toNat = 4094 ∧ (Instr.setImm 0 1).wellFormed = true ∧
      decodeBytes [s.mem.read s.pc.toNat, s.mem.read (s.pc.toNat + 1)] = .ok (.setImm 0 1, []) := ⟨{ start with pc := 4094, mem := [(4094, 0x60), (4095, 0x01)] }, by decide, by decide, by decide, rfl⟩

theorem witness_FetchPastMemoryFails :
    ∃ s : State, s.run = .running ∧ s.pc.toNat = 4095 := ⟨{ start with pc := 4095 }, by decide⟩

theorem witness_IllegalWordRaisesInvalidOpcode :
    (∃ s : State, s.run = .running ∧ s.pc.toNat = 4094 ∧ decodeWord (wordAtPc s) = none) ∧
    (∃ s : State, s.run = .running ∧ s.pc.toNat ≤ 4094 ∧ decodeWord (wordAtPc s) = some .halt) := ⟨⟨{ start with pc := 4094, mem := [(4094, 0x8A), (4095, 0xB8)] }, by decide⟩, ⟨start, by decide⟩⟩

theorem witness_HaltedStepChangesNothing :
    ∃ s : State, s.run = .halted ∧ s.err = some .stackOverflow := ⟨{ start with run := .halted, err := some .stackOverflow }, by decide⟩

theorem witness_StepErrorTable :
    (start.run = .running ∧ start.err = none ∧ stepError start = none) ∧
    (∃ s : State, s.run = .running ∧ s.err = none ∧ stepError s = some .outOfBoundsAccess ∧ s.pc.toNat = 4095) ∧
    (∃ s : State, s.run = .running ∧ s.err = none ∧ stepError s = some .stackUnderflow) ∧
    (∃ s : State, s.run = .running ∧ s.err = none ∧ stepError s = some .stackOverflow) ∧
    (∃ s : State, s.run = .running ∧ s.err = none ∧ stepError s = some .invalidOpcode) := by
  refine ⟨by decide, ⟨{ start with pc := 4095 }, by decide⟩, ⟨start.placeWord 0x00EE, by decide⟩,
    ⟨{ start.placeWord 0x2400 with sp := 16 }, by decide⟩,
    ⟨start.placeWord 0x8AB8, by decide⟩⟩

theorem witness_HaltedIsTerminal :
    ∃ s : State, s.run = .halted ∧ (∃ t, HostEvent.step.apply s = .next t) ∧ (∃ t, HostEvent.tick.apply s = .next t) ∧
      ∃ t, (HostEvent.setKey 15 true).apply s = .next t := ⟨{ start with run := .halted }, rfl, ⟨_, rfl⟩, ⟨_, rfl⟩, ⟨_, rfl⟩⟩

theorem witness_PcAfterEachInstruction :
    instrError .halt start = none ∧ instrError (.draw 0 0 1) { start with index := 4095 } = none ∧
    instrError (.draw 0 0 1) { start with index := 4096 } = some .outOfBoundsAccess ∧
    instrError (.draw 0 0 0) { start with index := 0xFFFF } = none ∧ instrError .ret start = some .stackUnderflow ∧
    instrError (.call 0) { start with sp := 16 } = some .stackOverflow := by decide

theorem witness_ReturnPopsTheStack :
    (∃ s : State, s.sp.val = 0 + 1) ∧ (∃ s : State, s.sp.val = 15 + 1) ∧ (∃ s : State, s.sp.val = 0) := ⟨⟨{ start with sp := 1 }, by decide⟩, ⟨{ start with sp := 16 }, by decide⟩, ⟨start, by decide⟩⟩

theorem witness_CallPushesTheLink :
    (∃ s : State, s.sp.val = 0) ∧ (∃ s : State, s.sp.val = 15) ∧ (∃ s : State, s.sp.val = 16) := ⟨⟨start, by decide⟩, ⟨{ start with sp := 15 }, by decide⟩, ⟨{ start with sp := 16 }, by decide⟩⟩

theorem witness_CallThenReturnComesBack :
    ∃ s : State, s.sp.val < 16 ∧ s.sp.val = 15 := ⟨{ start with sp := 15 }, by decide⟩

theorem witness_DumpStoresRegisters :
    (∃ s : State, s.index.toNat + (15 : Nibble).toNat = 4095) ∧ (∃ s : State, s.index.toNat + (15 : Nibble).toNat = 4096) := ⟨⟨{ start with index := 4080 }, by decide⟩, ⟨{ start with index := 4081 }, by decide⟩⟩

theorem witness_FillByMode :
    (∃ s : State, s.index.toNat + (1 : Nibble).toNat = 4095 ∧ s.params.fillMode = .load) ∧
    (∃ s : State, s.index.toNat + (1 : Nibble).toNat = 4095 ∧ s.params.fillMode = .store) ∧
    (∃ s : State, s.index.toNat + (1 : Nibble).toNat = 4096) := ⟨⟨{ start with index := 4094 }, by decide⟩,
    ⟨{ start with index := 4094, params := { start.params with fillMode := .store } }, by decide⟩,
    ⟨{ start with index := 4095 }, by decide⟩⟩

theorem witness_BcdDigits :
    (∃ s : State, s.params.bcdMode = .full ∧ s.index.toNat + 2 = 4095) ∧
    (∃ s : State, s.params.bcdMode = .full ∧ s.index.toNat + 2 = 4096) ∧ (∃ s : State, s.params.bcdMode = .stub) := ⟨⟨{ start with index := 4093 }, by decide⟩, ⟨{ start with index := 4094 }, by decide⟩,
    ⟨{ start with params := { start.params with bcdMode := .stub } }, by decide⟩⟩

theorem witness_DumpThenFillRestores :
    ∃ (s : State) (_ : Vector Byte 16), s.index.toNat + (15 : Nibble).toNat < 4096 ∧ s.params.fillMode = .load := ⟨{ start with index := 4080 }, Vector.replicate 16 0xAA, by decide⟩

theorem witness_StoreSeenByTheNextFetch :
    ∃ s : State, s.run = .running ∧ 1 ≤ (1 : Nibble).toNat ∧ s.index.toNat = s.pc.toNat + 2 ∧
      s.index.toNat + (1 : Nibble).toNat < 4096 ∧ s.index.toNat + (1 : Nibble).toNat = 4095 := ⟨{ start with pc := 4092, index := 4094 }, by decide⟩

theorem witness_DrawXorsTheSprite :
    (∃ s : State, spriteInBounds s 0 ∧ s.index = 0xFFFF) ∧ (∃ s : State, spriteInBounds s 15 ∧ s.index = 4081) ∧
    (∃ s : State, ¬ spriteInBounds s 15 ∧ s.index = 4082) ∧ (∃ s : State, spriteInBounds s 1 ∧ collides s 0 1 1) ∧
    (∃ s : State, spriteInBounds s 0 ∧ ¬ collides s 0 1 0) := by
  refine ⟨⟨{ start with index := 0xFFFF }, .inl rfl, rfl⟩, ⟨{ start with index := 4081 }, .inr (by decide), rfl⟩,
    ⟨{ start with index := 4082 }, by simp [spriteInBounds], rfl⟩, ⟨State.withPixels start [(0, 0)], .inr (by decide), ?_⟩,
    ⟨start, .inl rfl, ?_⟩⟩
  · exact ⟨0, 0, by decide, by decide, by decide, by decide⟩
  · rintro ⟨row, col, hr, hc, h, -⟩
    simp [spriteBit] at h
    omega

theorem witness_DrawTwiceRestoresTheDisplay :
    ∃ s : State, (0 : Nibble) ≠ 15 ∧ (14 : Nibble) ≠ 15 ∧ spriteInBounds s 15 ∧ s.index = 4081 := ⟨{ start with index := 4081 }, by decide, by decide, .inr (by decide), rfl⟩

theorem witness_SkipsOnKeys :
    ∃ s : State, 5 < 16 ∧ 5 = (s.reg 2).toNat % 16 ∧ s.reg 2 = 0x15 := ⟨State.withRegs start [(2, 0x15)], by decide⟩

theorem witness_AwaitKeyByMode :
    (∃ s : State, s.params.awaitKeyMode = .block ∧ s.keyDown 15 = true ∧
        ∀ j : Nibble, j.toNat < (15 : Nibble).toNat → s.keyDown j = false) ∧
    (∃ s : State, s.params.awaitKeyMode = .block ∧ ∀ k : Nibble, s.keyDown k = false) ∧
    (∃ s : State, s.params.awaitKeyMode = .stub) := ⟨⟨setKey 15 true start, by decide⟩, ⟨start, by decide⟩,
    ⟨{ start with params := { start.params with awaitKeyMode := .stub } }, by decide⟩⟩

theorem witness_RegistersChangeOnlyAsDestinations :
    ∃ s t : State, exec (.addReg 1 2) s = .next t ∧ t.reg 15 ≠ s.reg 15 := ⟨State.withRegs start [(1, 255), (2, 1)], _, rfl, by decide⟩

theorem witness_MemoryChangesOnlyByStores :
    ∃ s t : State, exec (.dump 0) s = .next t ∧ t.mem.read 4095 ≠ s.mem.read 4095 := ⟨State.withRegs { start with index := 4095 } [(0, 9)], _, rfl, by decide⟩

theorem witness_DisplayChangesOnlyByThree :
    ∃ s t : State, exec (.togglePixel 0 0) s = .next t ∧ t.disp ≠ s.disp := ⟨start, _, rfl, by decide⟩

theorem witness_IndexChangesOnlyByThree :
    ∃ s t : State, exec (.setIndex 0xFFF) s = .next t ∧ t.index ≠ s.index := ⟨start, _, rfl, by decide⟩

theorem witness_StackChangesOnlyByCallAndReturn :
    (∃ s t : State, exec (.call 0x400) s = .next t ∧ t.sp ≠ s.sp ∧ t.stack[15] ≠ s.stack[15]) ∧
    (∃ s t : State, exec .ret s = .next t ∧ t.sp ≠ s.sp) := ⟨⟨{ start with sp := 15 }, _, rfl, by decide⟩, ⟨{ start with sp := 1 }, _, rfl, by decide⟩⟩

theorem witness_TimersChangeOnlyByTheirSetters :
    (∃ s t : State, exec (.setTimer 0) s = .next t ∧ t.dt ≠ s.dt) ∧ (∃ s t : State, exec (.setSound 0) s = .next t ∧ t.st ≠ s.st) := ⟨⟨State.withRegs start [(0, 3)], _, rfl, by decide⟩, ⟨State.withRegs start [(0, 3)], _, rfl, by decide⟩⟩

theorem witness_StepNeverWritesKeysOrParameters :
    (∃ s t : State, step s = .next t) ∧ (∃ s t : State, exec (.random 0 0xFF) s = .next t ∧ t.draws ≠ s.draws) := ⟨⟨{ start with run := .halted }, _, rfl⟩, ⟨start, _, rfl, by simp [State.advance, State.setPc, State.writeReg, State.countDraw]⟩⟩

theorem witness_SoundTimerWrittenNeverRead :
    (∃ t, exec (.setSound 0) start = .next t) ∧ (∃ t, exec (.getTimer 0) start = .next t) := ⟨⟨_, rfl⟩, ⟨_, rfl⟩⟩

theorem reset_inv : State.reset.Inv where
  memWf := rfl
  runErr := fun _ => rfl
  pcBound := by decide
  stackBound := fun k _ hk => absurd hk (Nat.not_lt_zero k)

theorem witness_StepKeepsTheInvariant :
    ∃ s t : State, s.Inv ∧ step s = .next t := ⟨State.reset, _, reset_inv, rfl⟩

theorem witness_ReachableStatesMeetTheInvariant :
    ∃ s : State, Reachable s := ⟨_, .boot defaultFont defaultParams [] _ rfl⟩

theorem witness_ResetValues :
    (0 < 80 ∧ 79 < 80) ∧ (80 ≤ 80 ∧ 80 < 4096 ∧ 4095 < 4096) ∧ 15 < 16 := by decide

theorem witness_LoadImagePlacesBytes :
    (∃ bytes : List Byte, bytes.length = 3584) ∧ (∃ bytes : List Byte, bytes.length = 3585) ∧ ([] : List Byte).length ≤ 3584 := ⟨⟨List.replicate 3584 0, List.length_replicate⟩, ⟨List.replicate 3585 0, List.length_replicate⟩, by decide⟩

theorem witness_EncoderOutputDecodes :
    encodeStatement [⟨"end", 4095⟩] (.instr .call) [.label "end"] = .ok [0x2F, 0xFF] := rfl

theorem witness_LabelsAreUniqueAndPlaced :
    ∃ labels : SymbolTable, pass1 none 0x200 [] ([.op (.instr .halt) 1 []] ++ .labelDef "end" 2 :: []) = .ok labels := ⟨_, rfl⟩

theorem witness_PassesAgreeOnAddresses :
    ∃ cells : List Host.Cell, pass2 [] 0x200 (splitStatements none (lineOf 1 (.instr .halt) [])) = .ok cells := ⟨_, rfl⟩

end Sys2Proof.Tests
end

section
/-! What a step can do to each field of the state, one lemma per field, and the invariant it keeps
(spec/10_state.md R20 to R34, R36, R38). -/

namespace Sys2Proof.Machine

section
variable {s t : State} {i : Instr}

/-! ## Steps and host operations by their next states -/

/-- The next states of a step: the same state, an error's, or an effect of an instruction fetched below 4095. -/
theorem step_next_cases (h : step s = .next t) :
    t = s ∨ (∃ e, t = s.raised e) ∨ (∃ i, s.pc.toNat ≤ 4094 ∧ Effect s i t) := by
  rcases step_cases s with ⟨-, hs⟩ | ⟨-, -, hs⟩ | ⟨-, -, -, hs⟩ | ⟨i, -, hpc, -, hs⟩
  · rw [hs] at h
    cases h
    exact .inl rfl
  · rw [hs, raise_eq] at h
    cases h
    exact .inr (.inl ⟨.outOfBoundsAccess, rfl⟩)
  · rw [hs, raise_eq] at h
    cases h
    exact .inr (.inl ⟨.invalidOpcode, rfl⟩)
  · exact .inr (.inr ⟨i, hpc, effect_of_exec (hs ▸ h)⟩)

/-- A load that is not refused writes the image and nothing else (R232). -/
theorem eq_setMem_of_loadImage {bytes : List Byte} (h : loadImage bytes s = .next t) :
    t = s.setMem (s.mem.writeBytes 0x200 bytes) := by
  unfold loadImage at h
  split at h
  · cases h
    rfl
  · cases h

/-! ## Which instructions change each field -/

theorem State.reg_writeReg_of_ne {x r : Nibble} (h : r ≠ x) (s : State) (v : Byte) :
    (s.writeReg x v).reg r = s.reg r := by
  rw [State.reg_writeReg, if_neg h]

/-- A block load of `x[0]` up leaves the registers past the block's end (R165). -/
theorem State.reg_setRegs_loadRegs {r : Nibble} {bs : List Byte} (h : bs.length ≤ r.toNat) (s : State) :
    (s.setRegs (loadRegs s.x 0 bs)).reg r = s.reg r := by
  simp [State.reg, getElem_loadRegs, List.getElem?_eq_none h]

theorem Effect.reg_eq {r : Nibble} (h : Effect s i t) (hr : ¬ Claims.mayWriteReg i s r) : t.reg r = s.reg r := by
  cases h
  case setImm | addImm | setReg | bitOr | bitAnd | bitXor | random | getTimer =>
    exact State.reg_writeReg_of_ne hr _ _
  case awaitKeyFound x k hm hk =>
    exact State.reg_writeReg_of_ne (fun e => hr ⟨e, hm⟩) _ _
  case draw => exact State.reg_writeReg_of_ne hr _ _
  case addReg | sub | revsub =>
    obtain ⟨hx, hvf⟩ := not_or.1 hr
    exact (State.reg_writeReg_of_ne hvf _ _).trans (State.reg_writeReg_of_ne hx _ _)
  case rshift | lshift =>
    obtain ⟨hx, hvf⟩ := not_or.1 hr
    exact (State.reg_writeReg_of_ne hx _ _).trans (State.reg_writeReg_of_ne hvf _ _)
  case fillLoad x hm hle =>
    have hlt : x.toNat < r.toNat := Nat.lt_of_not_le fun e => hr ⟨e, hm⟩
    exact State.reg_setRegs_loadRegs (by simpa using hlt) s
  all_goals simp [State.reg]

theorem Effect.disp_cases (h : Effect s i t) :
    t.disp = s.disp ∨ i = .clearScreen ∨ (∃ x y, i = .togglePixel x y) ∨ (∃ x y n, i = .draw x y n) := by
  cases h
  case clearScreen => exact .inr (.inl rfl)
  case togglePixel => exact .inr (.inr (.inl ⟨_, _, rfl⟩))
  case draw => exact .inr (.inr (.inr ⟨_, _, _, rfl⟩))
  all_goals exact .inl (by simp)

theorem Effect.index_cases (h : Effect s i t) :
    t.index = s.index ∨ (∃ nnn, i = .setIndex nnn) ∨ (∃ x, i = .addIndex x) ∨ (∃ x, i = .setSprite x) := by
  cases h
  case setIndex nnn => exact .inr (.inl ⟨nnn, rfl⟩)
  case addIndex x => exact .inr (.inr (.inl ⟨x, rfl⟩))
  case setSprite x => exact .inr (.inr (.inr ⟨x, rfl⟩))
  all_goals exact .inl (by simp)

theorem Effect.sp_cases (h : Effect s i t) : t.sp = s.sp ∨ (∃ nnn, i = .call nnn) ∨ i = .ret := by
  cases h
  case call => exact .inr (.inl ⟨_, rfl⟩)
  case ret => exact .inr (.inr rfl)
  all_goals exact .inl (by simp)

/-- The stack is as it was, or the link was pushed by a call (R26, R123). -/
theorem Effect.stack_cases (h : Effect s i t) :
    t.stack = s.stack ∨
      ∃ nnn, i = .call nnn ∧ ∃ hsp : s.sp.val < 16, t.stack = s.stack.set s.sp.val s.linkAddress hsp := by
  cases h
  case call nnn hsp => exact .inr ⟨nnn, rfl, hsp, rfl⟩
  all_goals exact .inl (by simp)

theorem Effect.dt_cases (h : Effect s i t) : t.dt = s.dt ∨ ∃ x, i = .setTimer x := by
  cases h
  case setTimer x => exact .inr ⟨x, rfl⟩
  all_goals exact .inl (by simp)

theorem Effect.st_cases (h : Effect s i t) : t.st = s.st ∨ ∃ x, i = .setSound x := by
  cases h
  case setSound x => exact .inr ⟨x, rfl⟩
  all_goals exact .inl (by simp)

theorem Effect.draws_cases (h : Effect s i t) : t.draws = s.draws ∨ ∃ x nn, i = .random x nn := by
  cases h
  case random x nn => exact .inr ⟨x, nn, rfl⟩
  all_goals exact .inl (by simp)

theorem Effect.keys_eq (h : Effect s i t) : t.keys = s.keys := by
  cases h <;> simp

theorem Effect.params_eq (h : Effect s i t) : t.params = s.params := by
  cases h <;> simp

/-- The memory is as it was, or a block was stored from `I` up (R56). -/
theorem Effect.mem_cases (h : Effect s i t) :
    t.mem = s.mem ∨ ∃ vs, t.mem = s.mem.writeBytes s.index.toNat vs := by
  cases h
  case bcd x _ _ => exact .inr ⟨bcdDigits (s.reg x), rfl⟩
  case dump x _ => exact .inr ⟨regRange x s, rfl⟩
  case fillStore x _ _ => exact .inr ⟨regRange x s, rfl⟩
  all_goals exact .inl (by simp)

/-- Only a halt changes `run` or `err` (R121, R204). -/
theorem Effect.run_cases (h : Effect s i t) : (t.run = s.run ∧ t.err = s.err) ∨ t.run = .halted := by
  cases h
  case halt | retEmpty | callFull | drawOut | bcdOut | dumpOut | fillOut => exact .inr rfl
  all_goals exact .inl (by simp)

/-- The pc stays, moves on by 2 or 4, or is the target of a control transfer (R24). -/
theorem Effect.pc_cases (h : Effect s i t) :
    (t.pc = s.pc ∨ t.pc = s.pc + 2 ∨ t.pc = s.pc + 4) ∨
    (∃ nnn, t.pc = addrValue nnn) ∨ (∃ nnn, t.pc = indexedTarget nnn s) ∨
    (∃ hsp : 0 < s.sp.val, t.pc = s.stack[s.sp.val - 1]) := by
  cases h
  case jump nnn | call nnn _ => exact .inr (.inl ⟨nnn, rfl⟩)
  case jumpR0 nnn => exact .inr (.inr (.inl ⟨nnn, rfl⟩))
  case ret hsp => exact .inr (.inr (.inr ⟨hsp, rfl⟩))
  case skipIfEqImm | skipIfNeImm | skipIfEqReg | skipIfNeReg | skipIfKey | skipIfNotKey =>
    rw [State.skipIf_pc]
    split
    · exact .inl (.inr (.inr rfl))
    · exact .inl (.inr (.inl rfl))
  all_goals exact .inl (by simp)

/-! ## The invariant -/

/-- A 12-bit address as a pc is below 4096. -/
theorem addrValue_le (nnn : Addr12) : (addrValue nnn).toNat ≤ 4095 := by
  have := nnn.isLt
  simp only [addrValue, BitVec.toNat_setWidth]
  omega

/-- The greatest target of `jump.r0` is 4095 + 255 (R124). -/
theorem indexedTarget_le (nnn : Addr12) (s : State) : (indexedTarget nnn s).toNat ≤ 4350 := by
  have hn := nnn.isLt
  have hr := (s.reg 0).isLt
  simp only [indexedTarget, BitVec.toNat_add, BitVec.toNat_setWidth]
  omega

/-- The link of an instruction that was fetched is at most 4096 (R123). -/
theorem State.linkAddress_le (hpc : s.pc.toNat ≤ 4094) : s.linkAddress.toNat ≤ 4096 := by
  unfold State.linkAddress
  split
  · omega
  · bv_omega

theorem Effect.memWf (h : Effect s i t) (hs : s.Inv) : t.mem.wf = true := by
  rcases h.mem_cases with hm | ⟨vs, hm⟩ <;> rw [hm]
  · exact hs.memWf
  · exact Memory.wf_writeBytes _ _ _ hs.memWf

theorem Effect.runErr (h : Effect s i t) (hs : s.Inv) (hrun : t.run = .running) : t.err = none := by
  rcases h.run_cases with ⟨hr, he⟩ | hr
  · exact he.trans (hs.runErr (hr ▸ hrun))
  · simp [hr] at hrun

theorem Effect.pcBound (h : Effect s i t) (hs : s.Inv) (hpc : s.pc.toNat ≤ 4094) : t.pc.toNat ≤ 4350 := by
  rcases h.pc_cases with (ht | ht | ht) | ⟨nnn, ht⟩ | ⟨nnn, ht⟩ | ⟨hsp, ht⟩ <;> rw [ht]
  · exact hs.pcBound
  · bv_omega
  · bv_omega
  · exact (addrValue_le nnn).trans (by decide)
  · exact indexedTarget_le nnn s
  · exact (hs.stackBound _ _ (by omega)).trans (by decide)

theorem Effect.stackBound (h : Effect s i t) (hs : s.Inv) (hpc : s.pc.toNat ≤ 4094) (k : Nat) (hk : k < 16)
    (hlive : k < t.sp.val) : (t.stack[k]'hk).toNat ≤ 4096 := by
  cases h
  case call nnn hsp =>
    simp only [Vector.getElem_set]
    split
    · exact State.linkAddress_le hpc
    · exact hs.stackBound k hk (by simp at hlive; omega)
  case ret hsp => exact hs.stackBound k hk (by simp at hlive; omega)
  all_goals simpa using hs.stackBound k hk (by simpa using hlive)

/-- An instruction that was fetched keeps the invariant. -/
theorem Effect.inv (h : Effect s i t) (hs : s.Inv) (hpc : s.pc.toNat ≤ 4094) : t.Inv where
  memWf := h.memWf hs
  runErr := h.runErr hs
  pcBound := h.pcBound hs hpc
  stackBound := h.stackBound hs hpc

theorem State.Inv.raised (hs : s.Inv) (e : RunError) : (s.raised e).Inv where
  memWf := hs.memWf
  runErr := nofun
  pcBound := hs.pcBound
  stackBound := hs.stackBound

theorem State.Inv.setMem {m : Memory} (hs : s.Inv) (hm : m.wf = true) : (s.setMem m).Inv :=
  { hs with memWf := hm }

theorem State.Inv.step (hs : s.Inv) (h : Machine.step s = .next t) : t.Inv := by
  rcases step_next_cases h with rfl | ⟨e, rfl⟩ | ⟨i, hpc, he⟩
  · exact hs
  · exact hs.raised e
  · exact he.inv hs hpc

theorem State.Inv.apply {e : HostEvent} (hs : s.Inv) (h : e.apply s = .next t) : t.Inv := by
  cases e with
  | step => exact hs.step h
  | tick =>
    cases h
    exact { hs with }
  | setKey k down =>
    cases h
    exact { hs with }

end

/-- The reset values (R36) meet the invariant over any canonical memory. -/
theorem inv_reset_withMem {m : Memory} (hm : m.wf = true) (p : Params) :
    State.Inv { State.reset with mem := m, params := p } where
  memWf := hm
  runErr _ := rfl
  pcBound := show (0x200 : Word).toNat ≤ 4350 by decide
  stackBound k _ hk := absurd hk (Nat.not_lt_zero k)

theorem inv_resetWith (font : Font) (params : Params) : (State.resetWith font params).Inv :=
  inv_reset_withMem (Memory.wf_writeBytes [] 0 font.toList rfl) params

theorem inv_of_boot {font : Font} {params : Params} {image : List Byte} {s : State}
    (h : boot font params image = .next s) : s.Inv := by
  have hreset := inv_resetWith font params
  rw [eq_setMem_of_loadImage h]
  exact hreset.setMem (Memory.wf_writeBytes _ _ _ hreset.memWf)

end Sys2Proof.Machine

namespace Sys2Proof.Claims

open Sys2Proof.Machine

/-- Settles O50: an effect keeps each clause of the invariant, because it starts from a pc that a fetch accepted. -/
theorem stepKeepsTheInvariant : Obligations.StepKeepsTheInvariant :=
  fun _ _ hs h => hs.step h

/-- Settles O42: the register is the same unless the instruction may write it. -/
theorem registersChangeOnlyAsDestinations : Obligations.RegistersChangeOnlyAsDestinations :=
  fun _ _ _ _ h hne => by_contra fun hr => hne ((effect_of_exec h).reg_eq hr)

/-- Settles O44, by the cases of the display. -/
theorem displayChangesOnlyByThree : Obligations.DisplayChangesOnlyByThree :=
  fun _ _ _ h hne => (effect_of_exec h).disp_cases.resolve_left hne

/-- Settles O45, by the cases of the index register. -/
theorem indexChangesOnlyByThree : Obligations.IndexChangesOnlyByThree :=
  fun _ _ _ h hne => (effect_of_exec h).index_cases.resolve_left hne

/-- Settles O46: the only stack that differs has the link at the old sp. -/
theorem stackChangesOnlyByCallAndReturn : Obligations.StackChangesOnlyByCallAndReturn := by
  intro i s t h
  have he := effect_of_exec h
  refine ⟨he.sp_cases.resolve_left, fun k hk hne => ?_⟩
  rcases he.stack_cases with hst | ⟨nnn, hi, hsp, hst⟩
  · exact absurd (by simp [hst]) hne
  · refine ⟨⟨nnn, hi⟩, ?_⟩
    by_contra hks
    exact hne (by simp [hst, Ne.symm hks])

/-- Settles O47, by the cases of each timer. -/
theorem timersChangeOnlyByTheirSetters : Obligations.TimersChangeOnlyByTheirSetters :=
  fun _ _ _ h => ⟨(effect_of_exec h).dt_cases.resolve_left, (effect_of_exec h).st_cases.resolve_left⟩

/-- Settles O48: neither an error nor an effect writes the keys or the parameters. -/
theorem stepNeverWritesKeysOrParameters : Obligations.StepNeverWritesKeysOrParameters := by
  refine ⟨fun s t h => ?_, fun _ _ _ h => (effect_of_exec h).draws_cases.resolve_left⟩
  rcases step_next_cases h with rfl | ⟨e, rfl⟩ | ⟨i, -, he⟩
  · exact ⟨rfl, rfl⟩
  · exact ⟨rfl, rfl⟩
  · exact ⟨he.keys_eq, he.params_eq⟩

/-- Settles O52, by induction on the run: boot meets the invariant and every host operation keeps it. -/
theorem reachableStatesMeetTheInvariant : Obligations.ReachableStatesMeetTheInvariant := by
  intro s hs
  induction hs with
  | boot _ _ _ _ h => exact inv_of_boot h
  | event _ _ _ _ h ih => exact ih.apply h

/-- Settles O51: both reset states are the reset values over a canonical memory. -/
theorem resetMeetsTheInvariant : Obligations.ResetMeetsTheInvariant :=
  ⟨inv_reset_withMem (m := []) rfl defaultParams, inv_resetWith⟩

end Sys2Proof.Claims
end

section
/-! Which bytes of memory an instruction can change (spec/20_memory.md R56). -/

namespace Sys2Proof.Machine

/-- A block write inside the memory changes only the bytes from its first to its last. -/
theorem Memory.range_of_read_writeBytes_ne {m : Memory} {base a n : Nat} {vs : List Byte}
    (hlen : vs.length = n + 1) (hr : base + (n + 1) ≤ 4096) (hne : (m.writeBytes base vs).read a ≠ m.read a) :
    (base ≤ a ∧ a ≤ base + n) ∧ a < 4096 := by
  rw [Memory.read_writeBytes _ _ _ _ (by rwa [hlen])] at hne
  have hlo : base ≤ a := by
    by_contra hb
    exact hne (if_neg hb)
  have hhi : a ≤ base + n := by
    by_contra hend
    have hpast : vs[a - base]? = none := List.getElem?_eq_none (by omega)
    simp [hpast] at hne
  exact ⟨⟨hlo, hhi⟩, by omega⟩

/-- A byte that an instruction changes is one it may store to, inside the memory (R56). -/
theorem Effect.mayWriteByte_of_read_ne {s t : State} {i : Instr} {a : Nat} (h : Effect s i t)
    (hne : t.mem.read a ≠ s.mem.read a) : Claims.mayWriteByte i s a ∧ a < 4096 := by
  cases h
  case bcd x hm hle =>
    obtain ⟨hrange, ha⟩ := Memory.range_of_read_writeBytes_ne (length_bcdDigits (s.reg x)) hle hne
    exact ⟨⟨hm, hrange⟩, ha⟩
  case dump x hle => exact Memory.range_of_read_writeBytes_ne (length_regRange x s) hle hne
  case fillStore x hm hle =>
    obtain ⟨hrange, ha⟩ := Memory.range_of_read_writeBytes_ne (length_regRange x s) hle hne
    exact ⟨⟨hm, hrange⟩, ha⟩
  all_goals exact absurd (by simp) hne

end Sys2Proof.Machine

namespace Sys2Proof.Claims

open Sys2Proof.Machine

/-- Settles O43: only the three stores write a block, and each checks its range before it writes. -/
theorem memoryChangesOnlyByStores : Obligations.MemoryChangesOnlyByStores :=
  fun _ _ _ _ h hne => (effect_of_exec h).mayWriteByte_of_read_ne hne

end Sys2Proof.Claims
end

section
/-! The decoder against the encoder and the opcode map (spec/30_encoding.md R75, R78, R79, R95). -/

namespace Sys2Proof

/-- The word of an instruction decodes to it: the fields of its format are its operands (R95). -/
@[simp] theorem decodeWord_encode (i : Instr) : decodeWord (encode i) = some i := by
  cases i with
  | halt | clearScreen | ret => rfl
  | jump | call | setIndex | jumpR0 | skipIfEqImm | skipIfNeImm | setImm | addImm | random | draw =>
    simp [encode, decodeWord]
  | skipIfEqReg | togglePixel => simp [encode, decodeWord_op5, decode5]
  | setReg | bitOr | bitAnd | bitXor | addReg | sub | rshift | revsub | lshift =>
    simp [encode, decodeWord_op8, decode8]
  | skipIfNeReg => simp [encode, decodeWord_op9, decode9]
  | skipIfKey | skipIfNotKey => simp [encode, decodeWord_opE, decodeE]
  | getTimer | awaitKey | setTimer | setSound | addIndex | setSprite | bcd | dump | fill =>
    simp [encode, decodeWord_opF, decodeF]

/-- The bytes of an instruction decode to it, whatever follows them. -/
@[simp] theorem decodeBytes_encodeBytes (i : Instr) (rest : List Byte) :
    decodeBytes (encodeBytes i ++ rest) = .ok (i, rest) := by
  simp [encodeBytes]

/-- Two bytes decode to an instruction exactly when their word does. -/
theorem decodeBytes_cons_cons {hi lo : Byte} {rest : List Byte} {i : Instr} :
    decodeBytes (hi :: lo :: rest) = .ok (i, rest) ↔ decodeWord (wordOfBytes hi lo) = some i := by
  cases h : decodeWord (wordOfBytes hi lo) <;> simp [decodeBytes, h]

/-! ## Encoding what the decoder reads -/

open Claims (isShift)

/-- What encoding a decoded word gives: the word, with the `Y` nibble of a shift cleared (R95). -/
def reencoded (i : Instr) (w : Word) : Word := if isShift i then w &&& 0xFF0F else w

theorem nibble_cases (n : Nibble) :
    n = 0x0 ∨ n = 0x1 ∨ n = 0x2 ∨ n = 0x3 ∨ n = 0x4 ∨ n = 0x5 ∨ n = 0x6 ∨ n = 0x7 ∨
    n = 0x8 ∨ n = 0x9 ∨ n = 0xA ∨ n = 0xB ∨ n = 0xC ∨ n = 0xD ∨ n = 0xE ∨ n = 0xF := by
  revert n
  decide

section
variable {w : Word} {i : Instr}

theorem layoutA_eq_self {op : Nibble} (hop : opNibble w = op) : layoutA op (fieldNNN w) = w :=
  hop ▸ layoutA_fields w

theorem layoutXI_eq_self {op : Nibble} (hop : opNibble w = op) : layoutXI op (fieldX w) (fieldNN w) = w :=
  hop ▸ layoutXI_fields w

theorem layoutXY_eq_self {op n : Nibble} (hop : opNibble w = op) (hn : fieldN w = n) :
    layoutXY op (fieldX w) (fieldY w) n = w :=
  hop ▸ hn ▸ layoutXY_fields w

theorem layoutXS_eq_self {op : Nibble} {lo : Byte} (hop : opNibble w = op) (hlo : fieldNN w = lo) :
    layoutXS op (fieldX w) lo = w :=
  hop ▸ hlo ▸ layoutXS_fields w

/-- Clearing bits 7:4 of a word of format XY clears its `Y` field. -/
theorem layoutXY_clear_fieldY (op x y n : Nibble) : layoutXY op x y n &&& 0xFF0F = layoutXY op x 0 n := by
  apply BitVec.eq_of_getLsbD_eq
  intro k hk
  simp [layoutXY]
  interval_cases k <;> simp

theorem layoutXY_ite_eq {op : Nibble} (hop : opNibble w = op) (c : Bool) :
    layoutXY op (fieldX w) (if c then 0 else fieldY w) (fieldN w) = if c then w &&& 0xFF0F else w := by
  have hself := layoutXY_eq_self hop rfl
  cases c
  · exact hself
  · exact (layoutXY_clear_fieldY ..).symm.trans (congrArg (· &&& 0xFF0F) hself)

theorem encode_of_decodeZ (h : decodeZ w = some i) : encode i = reencoded i w := by
  unfold decodeZ at h
  split_ifs at h with hw hw hw <;> cases h <;> exact hw.symm

theorem encode_of_decode5 (hop : opNibble w = 0x5) (h : decode5 (fieldX w) (fieldY w) (fieldN w) = some i) :
    encode i = reencoded i w := by
  unfold decode5 at h
  split_ifs at h with hn hn <;> cases h <;> exact layoutXY_eq_self hop hn

/-- The shifts drop the `Y` nibble, the other rows of leading nibble 8 keep it (R76). -/
theorem encode_of_decode8 {x y n : Nibble} (h : decode8 x y n = some i) :
    encode i = layoutXY 0x8 x (if isShift i then 0 else y) n := by
  unfold decode8 at h
  split_ifs at h with hn hn hn hn hn hn hn hn hn <;> cases h <;> subst hn <;> rfl

theorem encode_of_decode9 (hop : opNibble w = 0x9) (h : decode9 (fieldX w) (fieldY w) (fieldN w) = some i) :
    encode i = reencoded i w := by
  unfold decode9 at h
  split_ifs at h with hn
  cases h
  exact layoutXY_eq_self hop hn

theorem encode_of_decodeE (hop : opNibble w = 0xE) (h : decodeE (fieldX w) (fieldNN w) = some i) :
    encode i = reencoded i w := by
  unfold decodeE at h
  split_ifs at h with hlo hlo <;> cases h <;> exact layoutXS_eq_self hop hlo

theorem encode_of_decodeF (hop : opNibble w = 0xF) (h : decodeF (fieldX w) (fieldNN w) = some i) :
    encode i = reencoded i w := by
  unfold decodeF at h
  split_ifs at h with hlo hlo hlo hlo hlo hlo hlo hlo hlo <;> cases h <;> exact layoutXS_eq_self hop hlo

/-- Encoding a decoded word gives it back, but for the ignored nibble of the shifts (R95). -/
theorem encode_of_decodeWord (h : decodeWord w = some i) : encode i = reencoded i w := by
  obtain hop | hop | hop | hop | hop | hop | hop | hop | hop | hop | hop | hop | hop | hop | hop | hop :=
    nibble_cases (opNibble w)
  · exact encode_of_decodeZ ((decodeWord_op0 w hop).symm.trans h)
  · cases (decodeWord_op1 w hop).symm.trans h
    exact layoutA_eq_self hop
  · cases (decodeWord_op2 w hop).symm.trans h
    exact layoutA_eq_self hop
  · cases (decodeWord_op3 w hop).symm.trans h
    exact layoutXI_eq_self hop
  · cases (decodeWord_op4 w hop).symm.trans h
    exact layoutXI_eq_self hop
  · exact encode_of_decode5 hop ((decodeWord_op5 w hop).symm.trans h)
  · cases (decodeWord_op6 w hop).symm.trans h
    exact layoutXI_eq_self hop
  · cases (decodeWord_op7 w hop).symm.trans h
    exact layoutXI_eq_self hop
  · exact (encode_of_decode8 ((decodeWord_op8 w hop).symm.trans h)).trans (layoutXY_ite_eq hop _)
  · exact encode_of_decode9 hop ((decodeWord_op9 w hop).symm.trans h)
  · cases (decodeWord_opA w hop).symm.trans h
    exact layoutA_eq_self hop
  · cases (decodeWord_opB w hop).symm.trans h
    exact layoutA_eq_self hop
  · cases (decodeWord_opC w hop).symm.trans h
    exact layoutXI_eq_self hop
  · cases (decodeWord_opD w hop).symm.trans h
    exact layoutXY_eq_self hop rfl
  · exact encode_of_decodeE hop ((decodeWord_opE w hop).symm.trans h)
  · exact encode_of_decodeF hop ((decodeWord_opF w hop).symm.trans h)

/-! ## The opcode map -/

open Laws.EncodesRow in
/-- Every word the encoder emits carries the fixed bits of its row (R78). -/
theorem encode_and_mask : ∀ i : Instr, encode i &&& i.mask = i.pattern
  | .halt => halt.2
  | .clearScreen => clearScreen.2
  | .ret => ret.2
  | .jump nnn => (jump nnn).2
  | .call nnn => (call nnn).2
  | .skipIfEqImm x nn => (skipIfEqImm x nn).2
  | .skipIfNeImm x nn => (skipIfNeImm x nn).2
  | .skipIfEqReg x y => (skipIfEqReg x y).2
  | .togglePixel x y => (togglePixel x y).2
  | .setImm x nn => (setImm x nn).2
  | .addImm x nn => (addImm x nn).2
  | .setReg x y => (setReg x y).2
  | .bitOr x y => (bitOr x y).2
  | .bitAnd x y => (bitAnd x y).2
  | .bitXor x y => (bitXor x y).2
  | .addReg x y => (addReg x y).2
  | .sub x y => (sub x y).2
  | .rshift x => (rshift x).2
  | .revsub x y => (revsub x y).2
  | .lshift x => (lshift x).2
  | .skipIfNeReg x y => (skipIfNeReg x y).2
  | .setIndex nnn => (setIndex nnn).2
  | .jumpR0 nnn => (jumpR0 nnn).2
  | .random x nn => (random x nn).2
  | .draw x y n => (draw x y n).2
  | .skipIfKey x => (skipIfKey x).2
  | .skipIfNotKey x => (skipIfNotKey x).2
  | .getTimer x => (getTimer x).2
  | .awaitKey x => (awaitKey x).2
  | .setTimer x => (setTimer x).2
  | .setSound x => (setSound x).2
  | .addIndex x => (addIndex x).2
  | .setSprite x => (setSprite x).2
  | .bcd x => (bcd x).2
  | .dump x => (dump x).2
  | .fill x => (fill x).2

/-- The mask of a shift does not look at the `Y` nibble (R76). -/
theorem clear_and_mask_of_isShift : ∀ {i : Instr}, isShift i = true → 0xFF0F &&& i.mask = i.mask
  | .rshift _, _ | .lshift _, _ => show (0xFF0F &&& 0xF00F : Word) = 0xF00F by decide

/-- A word that decodes carries the fixed bits of its row (R78). -/
theorem and_mask_of_decodeWord (h : decodeWord w = some i) : w &&& i.mask = i.pattern := by
  have hm := encode_and_mask i
  rw [encode_of_decodeWord h, reencoded] at hm
  split at hm
  next hs => rwa [BitVec.and_assoc, clear_and_mask_of_isShift hs] at hm
  next => exact hm

/-- A field that the mask covers is the pattern's. -/
theorem extractLsb'_of_and {m p : Word} {start len : Nat} (h : w &&& m = p)
    (hm : m.extractLsb' start len = BitVec.allOnes len) : w.extractLsb' start len = p.extractLsb' start len := by
  rw [← h, BitVec.extractLsb'_and, hm, BitVec.and_allOnes]

theorem opNibble_of_and {m p : Word} (h : w &&& m = p) (hm : opNibble m = BitVec.allOnes 4) :
    opNibble w = opNibble p :=
  extractLsb'_of_and h hm

theorem fieldN_of_and {m p : Word} (h : w &&& m = p) (hm : fieldN m = BitVec.allOnes 4) : fieldN w = fieldN p :=
  extractLsb'_of_and h hm

theorem fieldNN_of_and {m p : Word} (h : w &&& m = p) (hm : fieldNN m = BitVec.allOnes 8) : fieldNN w = fieldNN p :=
  extractLsb'_of_and h hm

/-- A word that carries the fixed bits of a row decodes to an instruction of that row (R78). -/
theorem decodeWord_of_and_mask (h : w &&& i.mask = i.pattern) :
    ∃ j, decodeWord w = some j ∧ j.mnemonic = i.mnemonic := by
  cases i <;> simp only [Instr.mask, Instr.pattern] at h
  case halt | clearScreen | ret =>
    obtain rfl := (BitVec.and_allOnes (x := w)).symm.trans h
    exact ⟨_, rfl, rfl⟩
  case jump => exact ⟨_, decodeWord_op1 w (opNibble_of_and h rfl), rfl⟩
  case call => exact ⟨_, decodeWord_op2 w (opNibble_of_and h rfl), rfl⟩
  case skipIfEqImm => exact ⟨_, decodeWord_op3 w (opNibble_of_and h rfl), rfl⟩
  case skipIfNeImm => exact ⟨_, decodeWord_op4 w (opNibble_of_and h rfl), rfl⟩
  case setImm => exact ⟨_, decodeWord_op6 w (opNibble_of_and h rfl), rfl⟩
  case addImm => exact ⟨_, decodeWord_op7 w (opNibble_of_and h rfl), rfl⟩
  case setIndex => exact ⟨_, decodeWord_opA w (opNibble_of_and h rfl), rfl⟩
  case jumpR0 => exact ⟨_, decodeWord_opB w (opNibble_of_and h rfl), rfl⟩
  case random => exact ⟨_, decodeWord_opC w (opNibble_of_and h rfl), rfl⟩
  case draw => exact ⟨_, decodeWord_opD w (opNibble_of_and h rfl), rfl⟩
  case skipIfEqReg | togglePixel =>
    refine ⟨_, by rw [decodeWord_op5 w (opNibble_of_and h rfl), fieldN_of_and h rfl]; rfl, ?_⟩
    rfl
  case setReg | bitOr | bitAnd | bitXor | addReg | sub | rshift | revsub | lshift =>
    refine ⟨_, by rw [decodeWord_op8 w (opNibble_of_and h rfl), fieldN_of_and h rfl]; rfl, ?_⟩
    rfl
  case skipIfNeReg =>
    refine ⟨_, by rw [decodeWord_op9 w (opNibble_of_and h rfl), fieldN_of_and h rfl]; rfl, ?_⟩
    rfl
  case skipIfKey | skipIfNotKey =>
    refine ⟨_, by rw [decodeWord_opE w (opNibble_of_and h rfl), fieldNN_of_and h rfl]; rfl, ?_⟩
    rfl
  case getTimer | awaitKey | setTimer | setSound | addIndex | setSprite | bcd | dump | fill =>
    refine ⟨_, by rw [decodeWord_opF w (opNibble_of_and h rfl), fieldNN_of_and h rfl]; rfl, ?_⟩
    rfl

/-- Two rows that share a word are one row (R78). -/
theorem mnemonic_eq_of_and_mask {j : Instr} (hi : w &&& i.mask = i.pattern) (hj : w &&& j.mask = j.pattern) :
    i.mnemonic = j.mnemonic := by
  obtain ⟨k, hk, hki⟩ := decodeWord_of_and_mask hi
  obtain ⟨l, hl, hlj⟩ := decodeWord_of_and_mask hj
  cases hk.symm.trans hl
  exact hki.symm.trans hlj

/-! ## Fields and words as numbers -/

theorem toNat_opNibble (w : Word) : (opNibble w).toNat = w.toNat / 4096 := by
  have hw := w.isLt
  rw [opNibble, BitVec.extractLsb'_toNat, Nat.shiftRight_eq_div_pow]
  omega

theorem toNat_fieldX (w : Word) : (fieldX w).toNat = w.toNat / 256 % 16 := by
  rw [fieldX, BitVec.extractLsb'_toNat, Nat.shiftRight_eq_div_pow]

theorem toNat_fieldY (w : Word) : (fieldY w).toNat = w.toNat / 16 % 16 := by
  rw [fieldY, BitVec.extractLsb'_toNat, Nat.shiftRight_eq_div_pow]

theorem toNat_fieldN (w : Word) : (fieldN w).toNat = w.toNat % 16 := BitVec.extractLsb'_toNat ..

theorem toNat_fieldNN (w : Word) : (fieldNN w).toNat = w.toNat % 256 := BitVec.extractLsb'_toNat ..

theorem toNat_fieldNNN (w : Word) : (fieldNNN w).toNat = w.toNat % 4096 := BitVec.extractLsb'_toNat ..

theorem toNat_layoutA (op : Nibble) (nnn : Addr12) : (layoutA op nnn).toNat = op.toNat * 4096 + nnn.toNat := by
  have hop := toNat_opNibble (layoutA op nnn)
  have hnnn := toNat_fieldNNN (layoutA op nnn)
  simp only [opNibble_layoutA, fieldNNN_layoutA] at hop hnnn
  omega

theorem toNat_layoutXI (op x : Nibble) (nn : Byte) :
    (layoutXI op x nn).toNat = op.toNat * 4096 + x.toNat * 256 + nn.toNat := by
  have hop := toNat_opNibble (layoutXI op x nn)
  have hx := toNat_fieldX (layoutXI op x nn)
  have hnn := toNat_fieldNN (layoutXI op x nn)
  simp only [opNibble_layoutXI, fieldX_layoutXI, fieldNN_layoutXI] at hop hx hnn
  omega

theorem toNat_layoutXY (op x y n : Nibble) :
    (layoutXY op x y n).toNat = op.toNat * 4096 + x.toNat * 256 + y.toNat * 16 + n.toNat := by
  have hop := toNat_opNibble (layoutXY op x y n)
  have hx := toNat_fieldX (layoutXY op x y n)
  have hy := toNat_fieldY (layoutXY op x y n)
  have hn := toNat_fieldN (layoutXY op x y n)
  simp only [opNibble_layoutXY, fieldX_layoutXY, fieldY_layoutXY, fieldN_layoutXY] at hop hx hy hn
  omega

theorem toNat_layoutXS (op x : Nibble) (lo : Byte) :
    (layoutXS op x lo).toNat = op.toNat * 4096 + x.toNat * 256 + lo.toNat :=
  toNat_layoutXI op x lo

/-- The two bytes of a word as numbers: the quotient by 256, then the remainder (R54). -/
theorem bytesOfWord_eq (w : Word) :
    bytesOfWord w = [BitVec.ofNat 8 (w.toNat / 256), BitVec.ofNat 8 (w.toNat % 256)] := by
  simp [bytesOfWord, ← BitVec.toNat_inj, Nat.shiftRight_eq_div_pow]

/-! ## The illegal words -/

theorem decodeZ_eq_none : decodeZ w = none ↔ w.toNat ≠ 0x0000 ∧ w.toNat ≠ 0x00E0 ∧ w.toNat ≠ 0x00EE := by
  simp [decodeZ, ite_eq_iff, ← BitVec.toNat_inj]

theorem decode5_eq_none {x y n : Nibble} : decode5 x y n = none ↔ 2 ≤ n.toNat := by
  simp [decode5, ite_eq_iff, ← BitVec.toNat_inj]
  omega

theorem decode8_eq_none {x y n : Nibble} :
    decode8 x y n = none ↔ n.toNat ∈ [0x8, 0x9, 0xA, 0xB, 0xC, 0xD, 0xF] := by
  have hn := n.isLt
  simp [decode8, ite_eq_iff, ← BitVec.toNat_inj]
  omega

theorem decode9_eq_none {x y n : Nibble} : decode9 x y n = none ↔ n.toNat ≠ 0 := by
  simp [decode9, ← BitVec.toNat_inj]

theorem decodeE_eq_none {x : Nibble} {lo : Byte} : decodeE x lo = none ↔ lo.toNat ∉ [0x9E, 0xA1] := by
  simp [decodeE, ite_eq_iff, ← BitVec.toNat_inj]

theorem decodeF_eq_none {x : Nibble} {lo : Byte} :
    decodeF x lo = none ↔ lo.toNat ∉ [0x07, 0x0A, 0x15, 0x18, 0x1E, 0x29, 0x33, 0x55, 0x65] := by
  simp [decodeF, ite_eq_iff, ← BitVec.toNat_inj]

/-- The decoder rejects a word exactly when the table of its leading nibble lists it (R79). -/
theorem decodeWord_eq_none : decodeWord w = none ↔ Claims.illegalWord w.toNat := by
  simp only [Claims.illegalWord, ← toNat_opNibble, ← toNat_fieldN, ← toNat_fieldNN]
  rcases nibble_cases (opNibble w) with
    hop | hop | hop | hop | hop | hop | hop | hop | hop | hop | hop | hop | hop | hop | hop | hop <;>
  simp [decodeWord, hop, decodeZ_eq_none, decode5_eq_none, decode8_eq_none, decode9_eq_none, decodeE_eq_none,
    decodeF_eq_none]

end

end Sys2Proof

namespace Sys2Proof.Claims

open Sys2Proof.Machine

/-- Settles O1: a word's bytes give it back, and an instruction's word decodes to the instruction. -/
theorem decodeEncodeRoundTrip : Obligations.DecodeEncodeRoundTrip :=
  fun i rest _ => decodeBytes_encodeBytes i rest

/-- Settles O2, by the leading nibble: the layout of the decoded fields is the word. -/
theorem encodeDecodeReturnsWord : Obligations.EncodeDecodeReturnsWord :=
  fun _ _ h => encode_of_decodeWord h

/-- Settles O3: the fixed bits of the row, both ways, and one row for each word. -/
theorem decoderMatchesTheOpcodeMap : Obligations.DecoderMatchesTheOpcodeMap :=
  fun _ => ⟨fun _ => and_mask_of_decodeWord, fun _ => decodeWord_of_and_mask, fun _ _ => mnemonic_eq_of_and_mask⟩

/-- Settles O4, by the leading nibble. -/
theorem illegalWordsAreTheTables : Obligations.IllegalWordsAreTheTables :=
  fun _ => decodeWord_eq_none

/-- Settles O10: of the four cases of a step, two raise an error and one executes; each answers a next state. -/
theorem everyStepAnswersNext : Obligations.EveryStepAnswersNext := by
  intro s
  rcases step_cases s with ⟨-, hs⟩ | ⟨-, -, hs⟩ | ⟨-, -, -, hs⟩ | ⟨i, -, -, -, hs⟩ <;> rw [hs]
  · exact ⟨s, rfl⟩
  · exact ⟨_, raise_eq _ s⟩
  · exact ⟨_, raise_eq _ s⟩
  · obtain ⟨t, ht, -⟩ := exec_effect i s
    exact ⟨t, ht⟩

/-- Settles O6: of the four cases of a step, only the last has a running machine and a legal word at the pc. -/
theorem stepRunsDecodedInstruction : Obligations.StepRunsDecodedInstruction := by
  intro s i hrun hpc _ hbytes
  have hword := decodeBytes_cons_cons.1 hbytes
  rcases step_cases s with ⟨hhalted, -⟩ | ⟨-, hpast, -⟩ | ⟨-, -, hillegal, -⟩ | ⟨j, -, -, hj, hs⟩
  · cases hrun.symm.trans hhalted
  · omega
  · cases hword.symm.trans hillegal
  · cases hword.symm.trans hj
    exact hs

end Sys2Proof.Claims
end

section
/-! The Instruction Encoder: the rows of the table of encodings, and `data` (spec/30_encoding.md R90 to R94, R103). -/

namespace Sys2Proof.Machine

/-- A literal passes the 4-bit check exactly when it is a nibble, and then it is that nibble. -/
theorem literal4_eq_ok {v : Addr12} {n : Nibble} : literal4 v = .ok n ↔ v = n.setWidth 12 := by
  have hn := n.isLt
  rw [← BitVec.toNat_inj, BitVec.toNat_setWidth, Nat.mod_eq_of_lt (by omega)]
  unfold literal4
  split <;> rename_i h <;> simp [← BitVec.toNat_inj] <;> omega

/-- A mapped result is a value exactly when it is the image of one. -/
theorem except_map_eq_ok {α β ε : Type} {f : α → β} {e : Except ε α} {b : β} :
    e.map f = .ok b ↔ ∃ a, e = .ok a ∧ f a = b := by
  cases e <;> simp [Except.map]

/-- A chained result is a value exactly when the second step makes it from the first's. -/
theorem except_bind_eq_ok {α β ε : Type} {f : α → Except ε β} {e : Except ε α} {b : β} :
    e.bind f = .ok b ↔ ∃ a, e = .ok a ∧ f a = .ok b := by
  cases e <;> simp [Except.bind]

/-! ## Operand forms: the arguments each accepts and the instruction it makes of them (R92) -/

section
variable {args : List Argument} {i : Instr}

theorem noArgs_eq_ok {j : Instr} : noArgs args j = .ok i ↔ args = [] ∧ j = i := by
  unfold noArgs
  split <;> simp_all

theorem argReg_eq_ok {mk : Nibble → Instr} :
    argReg args mk = .ok i ↔ ∃ x, args = [.register x] ∧ mk x = i := by
  unfold argReg
  split <;> simp_all

theorem argRegReg_eq_ok {mk : Nibble → Nibble → Instr} :
    argRegReg args mk = .ok i ↔ ∃ x y, args = [.register x, .register y] ∧ mk x y = i := by
  unfold argRegReg
  split <;> simp_all

theorem argRegLit_eq_ok {mk : Nibble → Byte → Instr} :
    argRegLit args mk = .ok i ↔
      ∃ x, ∃ nn : Byte, args = [.register x, .literal (nn.setWidth 12)] ∧ mk x nn = i := by
  unfold argRegLit
  split <;> simp_all [except_map_eq_ok, literal8_eq_ok]

theorem argRegEither_eq_ok {mkReg : Nibble → Nibble → Instr} {mkImm : Nibble → Byte → Instr} :
    argRegEither args mkReg mkImm = .ok i ↔
      (∃ x y, args = [.register x, .register y] ∧ mkReg x y = i) ∨
      (∃ x, ∃ nn : Byte, args = [.register x, .literal (nn.setWidth 12)] ∧ mkImm x nn = i) := by
  unfold argRegEither
  split <;> simp_all [except_map_eq_ok, literal8_eq_ok]

theorem argRegRegN_eq_ok {mk : Nibble → Nibble → Nibble → Instr} :
    argRegRegN args mk = .ok i ↔
      ∃ x y, ∃ n : Nibble, args = [.register x, .register y, .literal (n.setWidth 12)] ∧ mk x y n = i := by
  unfold argRegRegN
  split <;> simp_all [except_map_eq_ok, literal4_eq_ok]

end

/-! ## `data` -/

theorem dataLiterals_eq_ok {args : List Argument} {vs : List Addr12} :
    dataLiterals args = .ok vs ↔ vs.map .literal = args := by
  induction args generalizing vs with
  | nil => cases vs <;> simp [dataLiterals]
  | cons a args ih =>
    cases a with
    | literal v => cases vs <;> simp [dataLiterals, except_map_eq_ok, ih, and_comm, eq_comm (a := v)]
    | _ => cases vs <;> simp [dataLiterals]

theorem dataBytes_eq_ok {vs : List Addr12} {bytes : List Byte} :
    dataBytes vs = .ok bytes ↔ vs = bytes.map (·.setWidth 12) := by
  induction vs generalizing bytes with
  | nil => cases bytes <;> simp [dataBytes]
  | cons v vs ih => cases bytes <;> simp [dataBytes, except_bind_eq_ok, except_map_eq_ok, literal8_eq_ok, ih]

theorem encodeData_eq_ok {args : List Argument} {bytes : List Byte} :
    encodeData args = .ok bytes ↔
      1 ≤ args.length ∧ args.length ≤ 8 ∧ args = bytes.map (fun b => .literal (b.setWidth 12)) := by
  unfold encodeData
  split
  next h => simp; omega
  next h =>
    have hlen : 1 ≤ args.length ∧ args.length ≤ 8 := by omega
    simp [except_bind_eq_ok, dataLiterals_eq_ok, dataBytes_eq_ok, hlen, eq_comm (a := args), Function.comp_def]

end Sys2Proof.Machine

namespace Sys2Proof.Claims

open Sys2Proof.Machine

section
variable {labels : SymbolTable} {name : InstrName} {args : List Argument} {i : Instr} {w : Nat}

/-- An address argument is a literal, or a label that resolves (R91). -/
theorem addrArg_iff {g : Argument} {nnn : Addr12} :
    AddrArg labels g nnn.toNat ↔
      g = .literal nnn ∨ ∃ name, g = .label name ∧ resolveLabel labels name = .ok nnn := by
  constructor
  · generalize hn : nnn.toNat = n
    rintro (v | ⟨name, a, hl, hr⟩)
    · exact .inl (BitVec.eq_of_toNat_eq hn ▸ rfl)
    · have ha : nnn.setWidth 16 = a := by bv_omega
      exact .inr ⟨name, rfl, resolveLabel_eq_ok.2 (ha ▸ hl)⟩
  · rintro (rfl | ⟨name, rfl, hres⟩)
    · exact .literal nnn
    · have hn : (nnn.setWidth 16).toNat = nnn.toNat := by bv_omega
      exact hn ▸ .label name _ (resolveLabel_eq_ok.1 hres) (by bv_omega)

/-- An address argument has an address of 12 bits (R91). -/
theorem AddrArg.exists_toNat {g : Argument} {a : Nat} (h : AddrArg labels g a) : ∃ nnn : Addr12, a = nnn.toNat := by
  cases h with
  | literal v => exact ⟨v, rfl⟩
  | label _ a _ hr => exact ⟨a.setWidth 12, by bv_omega⟩

theorem argAddr_eq_ok {mk : Addr12 → Instr} :
    argAddr labels args mk = .ok i ↔
      ∃ g, ∃ nnn : Addr12, args = [g] ∧ AddrArg labels g nnn.toNat ∧ mk nnn = i := by
  unfold argAddr
  split <;> simp_all [except_map_eq_ok, addrArg_iff]

theorem argJump_eq_ok :
    argJump labels args = .ok i ↔
      (∃ g, ∃ nnn : Addr12, args = [g] ∧ AddrArg labels g nnn.toNat ∧ .jump nnn = i) ∨
      (∃ g, ∃ nnn : Addr12, args = [g, .register 0] ∧ AddrArg labels g nnn.toNat ∧ .jumpR0 nnn = i) := by
  unfold argJump
  split
  next g => simp [argAddr_eq_ok]
  next g r => split <;> simp_all [argAddr_eq_ok]
  next => simp_all
  next => simp_all

/-! ## The table of encodings -/

/-- The literals of an 8-bit field are the bytes. -/
theorem le_255_iff {v : Addr12} : v.toNat ≤ 255 ↔ ∃ nn : Byte, v = nn.setWidth 12 :=
  ⟨fun _ => ⟨v.setWidth 8, by bv_omega⟩, fun ⟨_, _⟩ => by bv_omega⟩

/-- The literals of a 4-bit field are the nibbles. -/
theorem le_15_iff {v : Addr12} : v.toNat ≤ 15 ↔ ∃ n : Nibble, v = n.setWidth 12 :=
  ⟨fun _ => ⟨v.setWidth 4, by bv_omega⟩, fun ⟨_, _⟩ => by bv_omega⟩

theorem EncodingRow.of_eq {v : Nat} (h : EncodingRow labels name args v) (hw : w = v) :
    EncodingRow labels name args w :=
  hw ▸ h

/-- The word of the selected instruction is the word of a row that the arguments fit (R92). -/
theorem encodingRow_of_selectInstr (h : selectInstr labels name args = .ok i) :
    EncodingRow labels name args (encode i).toNat := by
  cases name <;> simp only [selectInstr] at h
  case halt | clearScreen | ret =>
    obtain ⟨rfl, rfl⟩ := noArgs_eq_ok.1 h
    constructor
  case jump =>
    obtain ⟨g, nnn, rfl, hg, rfl⟩ | ⟨g, nnn, rfl, hg, rfl⟩ := argJump_eq_ok.1 h
    · exact .of_eq (.jump g _ hg) (toNat_layoutA ..)
    · exact .of_eq (.jumpR0 g _ hg) (toNat_layoutA ..)
  case call =>
    obtain ⟨g, nnn, rfl, hg, rfl⟩ := argAddr_eq_ok.1 h
    exact .of_eq (.call g _ hg) (toNat_layoutA ..)
  case setIndex =>
    obtain ⟨g, nnn, rfl, hg, rfl⟩ := argAddr_eq_ok.1 h
    exact .of_eq (.setIndex g _ hg) (toNat_layoutA ..)
  case skipIfEq | skipIfNe | set | add =>
    obtain ⟨x, y, rfl, rfl⟩ | ⟨x, nn, rfl, rfl⟩ := argRegEither_eq_ok.1 h
    · apply EncodingRow.of_eq (by constructor)
      simp only [encode, toNat_layoutXY]
      bv_omega
    · apply EncodingRow.of_eq (by constructor; exact le_255_iff.2 ⟨nn, rfl⟩)
      simp only [encode, toNat_layoutXI]
      bv_omega
  case random =>
    obtain ⟨x, nn, rfl, rfl⟩ := argRegLit_eq_ok.1 h
    apply EncodingRow.of_eq (.random x _ (le_255_iff.2 ⟨nn, rfl⟩))
    simp only [encode, toNat_layoutXI]
    bv_omega
  case draw =>
    obtain ⟨x, y, n, rfl, rfl⟩ := argRegRegN_eq_ok.1 h
    apply EncodingRow.of_eq (.draw x y _ (le_15_iff.2 ⟨n, rfl⟩))
    simp only [encode, toNat_layoutXY]
    bv_omega
  case togglePixel | bitOr | bitAnd | bitXor | sub | revsub =>
    obtain ⟨x, y, rfl, rfl⟩ := argRegReg_eq_ok.1 h
    apply EncodingRow.of_eq (by constructor)
    simp only [encode, toNat_layoutXY]
    bv_omega
  case rshift | lshift | skipIfKey | skipIfNotKey | getTimer | awaitKey | setTimer | setSound | addIndex | setSprite
      | bcd | dump | fill =>
    obtain ⟨x, rfl, rfl⟩ := argReg_eq_ok.1 h
    apply EncodingRow.of_eq (by constructor)
    simp only [encode, toNat_layoutXS, toNat_layoutXY]
    bv_omega

/-- Arguments that fit a row select an instruction, and its word is the row's (R92). -/
theorem exists_selectInstr_of_encodingRow (h : EncodingRow labels name args w) :
    ∃ i, selectInstr labels name args = .ok i ∧ (encode i).toNat = w := by
  cases h
  case halt | clearScreen | ret => exact ⟨_, rfl, rfl⟩
  case jump g a hg =>
    obtain ⟨nnn, rfl⟩ := hg.exists_toNat
    exact ⟨_, argJump_eq_ok.2 (.inl ⟨g, nnn, rfl, hg, rfl⟩), toNat_layoutA ..⟩
  case jumpR0 g a hg =>
    obtain ⟨nnn, rfl⟩ := hg.exists_toNat
    exact ⟨_, argJump_eq_ok.2 (.inr ⟨g, nnn, rfl, hg, rfl⟩), toNat_layoutA ..⟩
  case call g a hg | setIndex g a hg =>
    obtain ⟨nnn, rfl⟩ := hg.exists_toNat
    exact ⟨_, argAddr_eq_ok.2 ⟨g, nnn, rfl, hg, rfl⟩, toNat_layoutA ..⟩
  case skipIfEqImm x v hv | skipIfNeImm x v hv | setImm x v hv | addImm x v hv | random x v hv =>
    obtain ⟨nn, rfl⟩ := le_255_iff.1 hv
    refine ⟨_, except_map_eq_ok.2 ⟨nn, literal8_eq_ok.2 rfl, rfl⟩, ?_⟩
    simp only [encode, toNat_layoutXI]
    bv_omega
  case draw x y v hv =>
    obtain ⟨n, rfl⟩ := le_15_iff.1 hv
    refine ⟨_, except_map_eq_ok.2 ⟨n, literal4_eq_ok.2 rfl, rfl⟩, ?_⟩
    simp only [encode, toNat_layoutXY]
    bv_omega
  all_goals
    refine ⟨_, rfl, ?_⟩
    simp only [encode, toNat_layoutXS, toNat_layoutXY]
    bv_omega

theorem encodeStatement_instr_eq_ok {bytes : List Byte} :
    encodeStatement labels (.instr name) args = .ok bytes ↔
      ∃ i, selectInstr labels name args = .ok i ∧ encodeBytes i = bytes :=
  except_map_eq_ok

end

/-- Settles O55: the selected instruction's word is the row's, and each row is selected. -/
theorem encoderTableWords : Obligations.EncoderTableWords := by
  intro labels name args bytes
  rw [encodeStatement_instr_eq_ok]
  constructor
  · rintro ⟨i, hi, rfl⟩
    exact ⟨_, encodingRow_of_selectInstr hi, bytesOfWord_eq _⟩
  · rintro ⟨w, hrow, rfl⟩
    obtain ⟨i, hi, rfl⟩ := exists_selectInstr_of_encodingRow hrow
    exact ⟨i, hi, bytesOfWord_eq _⟩

/-- Settles O56: what is emitted is the selected instruction's bytes, and they decode to it. -/
theorem encoderOutputDecodes : Obligations.EncoderOutputDecodes := by
  intro labels name args bytes h
  obtain ⟨i, hi, rfl⟩ := encodeStatement_instr_eq_ok.1 h
  exact ⟨i, hi, decodeBytes_encodeBytes i []⟩

/-- Settles O57: the two checks of `data` read the arguments as the bytes. -/
theorem dataEmitsItsLiterals : Obligations.DataEmitsItsLiterals :=
  fun _ _ _ => encodeData_eq_ok

end Sys2Proof.Claims
end

section
/-! The two passes of the assembler: where labels stand, and that both passes move alike (spec/30_encoding.md R100 to
R105). -/

namespace Sys2Proof.Machine

/-! ## Pass 1 -/

section
variable {cap : Option Nat} {cursor : Nat} {labels table : SymbolTable} {name : String} {line : Nat}
variable {ss : List Statement}

/-- A label definition that pass 1 accepts is new and stands at the cursor (R101). -/
theorem pass1_labelDef (h : pass1 cap cursor labels (.labelDef name line :: ss) = .ok table) :
    labels.lookup name = none ∧ ∃ a : Word, cursor = a.toNat ∧
      pass1 cap cursor (labels ++ [⟨name, a⟩]) ss = .ok table := by
  unfold pass1 at h
  split_ifs at h with hdup hfull
  split at h
  next a ha => exact ⟨by simpa using hdup, a, labelAddress_eq_ok.1 ha, h⟩
  next => cases h

theorem not_mem_of_lookup_eq_none (h : labels.lookup name = none) : name ∉ labels.map Label.name := by
  simpa [SymbolTable.lookup] using h

/-- Pass 1 adds no name twice (R101). -/
theorem nodup_of_pass1 (h : pass1 cap cursor labels ss = .ok table) (hnd : (labels.map Label.name).Nodup) :
    (table.map Label.name).Nodup := by
  induction ss generalizing cursor labels with
  | nil =>
    cases h
    exact hnd
  | cons st ss ih =>
    cases st with
    | labelDef name line =>
      obtain ⟨hnew, a, -, hrest⟩ := pass1_labelDef h
      refine ih hrest ?_
      rw [List.map_append, List.map_singleton, ← List.concat_eq_append]
      exact hnd.concat (not_mem_of_lookup_eq_none hnew)
    | op m line argTokens => exact ih h hnd
    | stray line => cases h

/-- What the table has, it keeps (R101). -/
theorem lookup_of_pass1 {a : Word} (h : pass1 cap cursor labels ss = .ok table) (hl : labels.lookup name = some a) :
    table.lookup name = some a := by
  induction ss generalizing cursor labels with
  | nil =>
    cases h
    exact hl
  | cons st ss ih =>
    cases st with
    | labelDef name' line =>
      obtain ⟨-, a', -, hrest⟩ := pass1_labelDef h
      exact ih hrest (by simp [SymbolTable.lookup_append, hl])
    | op m line argTokens => exact ih h hl
    | stray line => cases h

/-- A label defined after some statements stands past their sizes (R101). -/
theorem address_of_pass1 {pre post : List Statement}
    (h : pass1 cap cursor labels (pre ++ .labelDef name line :: post) = .ok table) :
    (table.lookup name).map BitVec.toNat = some (cursor + (pre.map Claims.sizeOf).sum) := by
  induction pre generalizing cursor labels with
  | nil =>
    obtain ⟨hnew, a, hcursor, hrest⟩ := pass1_labelDef h
    have hl : SymbolTable.lookup (labels ++ [⟨name, a⟩]) name = some a := by simp [SymbolTable.lookup_append, hnew]
    simp [lookup_of_pass1 hrest hl, hcursor]
  | cons st pre ih =>
    cases st with
    | labelDef name' line' =>
      obtain ⟨-, a', -, hrest⟩ := pass1_labelDef h
      simpa [Claims.sizeOf] using ih hrest
    | op m line' argTokens => simpa [Claims.sizeOf, Nat.add_assoc] using ih h
    | stray line' => cases h

end

/-! ## Statements -/

/-- A line break stands nowhere but at the end (R100). -/
def BreakOnlyLast (tokens : List Token) : Prop := tokens.Pairwise fun t _ => t.kind ≠ .lineBreak

/-- The tokens of a statement hold no line break but at the end (R100). -/
def Statement.OneLine : Statement → Prop
  | .op _ _ argTokens => BreakOnlyLast argTokens
  | _ => True

theorem BreakOnlyLast.tail {t : Token} {ts : List Token} (h : BreakOnlyLast (t :: ts)) : BreakOnlyLast ts :=
  (List.pairwise_cons.1 h).2

theorem BreakOnlyLast.eq_nil_of_lineBreak {t : Token} {ts : List Token} (h : BreakOnlyLast (t :: ts))
    (ht : t.kind = .lineBreak) : ts = [] :=
  List.eq_nil_iff_forall_not_mem.2 fun u hu => (List.pairwise_cons.1 h).1 u hu ht

/-- No token of the statement being read is a line break (R100). -/
def OpenStatement.NoBreak (o : OpenStatement) : Prop := ∀ t ∈ o.tokens, t.kind ≠ .lineBreak

theorem OpenStatement.NoBreak.push {o : OpenStatement} {t : Token} (ho : o.NoBreak) (ht : t.kind ≠ .lineBreak) :
    OpenStatement.NoBreak { o with tokens := t :: o.tokens } :=
  List.forall_mem_cons.2 ⟨ht, ho⟩

theorem OpenStatement.NoBreak.oneLine_close {o : OpenStatement} (ho : o.NoBreak) : o.close.OneLine :=
  List.pairwise_reverse.2 (List.pairwise_of_forall_mem_list fun _ _ u hu => ho u hu)

theorem OpenStatement.NoBreak.oneLine_close_cons {o : OpenStatement} {t : Token} (ho : o.NoBreak) :
    (OpenStatement.close { o with tokens := t :: o.tokens }).OneLine :=
  List.pairwise_reverse.2 (List.pairwise_cons.2 ⟨fun u hu => ho u hu, List.pairwise_reverse.1 ho.oneLine_close⟩)

/-- The statements of a token sequence are one line each (R100). -/
theorem oneLine_of_mem_splitStatements {o : Option OpenStatement} {ts : List Token} (ho : ∀ p ∈ o, p.NoBreak) :
    ∀ st ∈ splitStatements o ts, st.OneLine := by
  fun_induction splitStatements o ts with
  | case1 | case7 => exact List.forall_mem_nil _
  | case2 o => exact List.forall_mem_singleton.2 (ho o rfl).oneLine_close
  | case3 o t ts _ ih => exact List.forall_mem_cons.2 ⟨(ho o rfl).oneLine_close_cons, ih nofun⟩
  | case4 o t ts => exact List.forall_mem_singleton.2 (ho o rfl).oneLine_close_cons
  | case5 o t ts hbreak _ ih =>
    refine ih fun p hp => ?_
    cases hp
    exact (ho o rfl).push hbreak
  | case6 t ts _ ih => exact ih nofun
  | case8 t ts name _ ih => exact List.forall_mem_cons.2 ⟨trivial, ih nofun⟩
  | case9 t ts m _ ih =>
    refine ih fun p hp => ?_
    cases hp
    exact List.forall_mem_nil _
  | case10 t ts _ _ _ _ ih => exact List.forall_mem_cons.2 ⟨trivial, ih nofun⟩

/-! ## The Argument Collector -/

/-- Whether an argument is a literal. -/
def Argument.isLiteral : Argument → Bool
  | .literal _ => true
  | _ => false

theorem Token.isLiteral_of_argument {t : Token} {a : Argument} (ht : t.kind = .argument a) :
    t.isLiteral = a.isLiteral := by
  cases a <;> simp [Token.isLiteral, ht, Argument.isLiteral]

/-- The arguments collected from one line hold as many literals as its tokens (R101, R102). -/
theorem countP_collectArgs {line n : Nat} {c : CollectAt} {ts : List Token} {args : List Argument}
    (h : collectArgs line c n ts = .ok args) (hts : BreakOnlyLast ts) :
    args.countP Argument.isLiteral = ts.countP Token.isLiteral := by
  fun_induction collectArgs line c n ts generalizing args with
  | case2 n t ts ht | case6 n t ts ht =>
    cases h
    obtain rfl := hts.eq_nil_of_lineBreak ht
    simp [Token.isLiteral, ht]
  | case3 n t ts a ht ih | case10 n t ts a ht _ ih =>
    obtain ⟨rest, hrest, rfl⟩ := except_map_eq_ok.1 h
    simp [List.countP_cons, ih hrest hts.tail, Token.isLiteral_of_argument ht]
  | case7 n t ts ht ih => simp [ih h hts.tail, Token.isLiteral, ht]
  | _ => cases h

theorem length_of_encodeData {args : List Argument} {bytes : List Byte} (h : encodeData args = .ok bytes) :
    bytes.length = args.countP Argument.isLiteral := by
  obtain ⟨-, -, rfl⟩ := encodeData_eq_ok.1 h
  simp [List.countP_map, Function.comp_def, Argument.isLiteral]

/-! ## Pass 2 -/

/-- A statement is as long as pass 1 takes it to be (R101, R104). -/
theorem length_of_assembleOp {labels : SymbolTable} {m : Mnemonic} {line : Nat} {argTokens : List Token}
    {bytes : List Byte} (h : assembleOp labels m line argTokens = .ok bytes) (hts : BreakOnlyLast argTokens) :
    bytes.length = statementSize m argTokens := by
  obtain ⟨args, hargs, henc⟩ := except_bind_eq_ok.1 h
  have hbytes : encodeStatement labels m args = .ok bytes := by
    split at henc
    next hok =>
      cases henc
      exact hok
    next => cases henc
  cases m with
  | instr name =>
    obtain ⟨i, -, rfl⟩ := Claims.encodeStatement_instr_eq_ok.1 hbytes
    rfl
  | data => exact (length_of_encodeData hbytes).trans (countP_collectArgs hargs hts)

theorem map_fst_placeBytes (cursor : Nat) (bytes : List Byte) :
    (placeBytes cursor bytes).map Prod.fst = List.range' cursor bytes.length := by
  induction bytes generalizing cursor with
  | nil => rfl
  | cons b bytes ih => simp [placeBytes, ih, List.range'_succ]

theorem length_placeBytes (cursor : Nat) (bytes : List Byte) : (placeBytes cursor bytes).length = bytes.length := by
  simpa using congrArg List.length (map_fst_placeBytes cursor bytes)

/-- An instruction or `data` that pass 2 accepts: its bytes at the cursor, then the rest past them (R104). -/
theorem pass2_op {labels : SymbolTable} {cursor : Nat} {m : Mnemonic} {line : Nat} {argTokens : List Token}
    {ss : List Statement} {cells : List Host.Cell}
    (h : pass2 labels cursor (.op m line argTokens :: ss) = .ok cells) :
    ∃ bytes rest, assembleOp labels m line argTokens = .ok bytes ∧
      pass2 labels (cursor + bytes.length) ss = .ok rest ∧ cells = placeBytes cursor bytes ++ rest := by
  obtain ⟨bytes, hbytes, h⟩ := except_bind_eq_ok.1 h
  obtain ⟨rest, hrest, rfl⟩ := except_map_eq_ok.1 h
  exact ⟨bytes, rest, hbytes, hrest, rfl⟩

/-- Pass 2 fills consecutive addresses from the cursor (R104, R105). -/
theorem map_fst_of_pass2 {labels : SymbolTable} {cursor : Nat} {ss : List Statement} {cells : List Host.Cell}
    (h : pass2 labels cursor ss = .ok cells) : cells.map Prod.fst = List.range' cursor cells.length := by
  induction ss generalizing cursor cells with
  | nil =>
    cases h
    rfl
  | cons st ss ih =>
    cases st with
    | labelDef name line => exact ih h
    | op m line argTokens =>
      obtain ⟨bytes, rest, -, hrest, rfl⟩ := pass2_op h
      simp [map_fst_placeBytes, length_placeBytes, ih hrest]
    | stray line => cases h

/-- Pass 2 emits as many bytes as pass 1 counts (R101, R104). -/
theorem length_of_pass2 {labels : SymbolTable} {cursor : Nat} {ss : List Statement} {cells : List Host.Cell}
    (h : pass2 labels cursor ss = .ok cells) (hss : ∀ st ∈ ss, st.OneLine) :
    cells.length = (ss.map Claims.sizeOf).sum := by
  induction ss generalizing cursor cells with
  | nil =>
    cases h
    rfl
  | cons st ss ih =>
    obtain ⟨hst, hlater⟩ := List.forall_mem_cons.1 hss
    cases st with
    | labelDef name line => simpa [Claims.sizeOf] using ih h hlater
    | op m line argTokens =>
      obtain ⟨bytes, rest, hbytes, hrest, rfl⟩ := pass2_op h
      simp [Claims.sizeOf, length_placeBytes, length_of_assembleOp hbytes hst, ih hrest hlater]
    | stray line => cases h

end Sys2Proof.Machine

namespace Sys2Proof.Claims

open Sys2Proof.Machine

/-- Settles O58: each definition adds a new name at the cursor, and the table keeps what it has. -/
theorem labelsAreUniqueAndPlaced : Obligations.LabelsAreUniqueAndPlaced :=
  fun _ _ _ h => ⟨nodup_of_pass1 h List.nodup_nil, fun _ _ _ _ hss => address_of_pass1 (hss ▸ h)⟩

/-- Settles O59: every statement is one line, so pass 2 emits the bytes pass 1 counts. -/
theorem passesAgreeOnAddresses : Obligations.PassesAgreeOnAddresses :=
  fun _ _ _ h => ⟨map_fst_of_pass2 h, length_of_pass2 h (oneLine_of_mem_splitStatements (by simp))⟩

end Sys2Proof.Claims
end

section
/-! Control transfer: what the stack instructions do on each side of their guard, the pc of a skip, and the targets as
numbers (spec/40_control.md R120 to R129). -/

namespace Sys2Proof.Machine

section
variable {s : State}

/-! ## Targets and links -/

theorem toNat_addrValue (nnn : Addr12) : (addrValue nnn).toNat = nnn.toNat :=
  BitVec.toNat_setWidth_of_le (by decide)

/-- The target of `jump.r0` is the exact sum, at most 4095 + 255 (R124). -/
theorem toNat_indexedTarget (nnn : Addr12) (s : State) : (indexedTarget nnn s).toNat = nnn.toNat + (s.reg 0).toNat := by
  have hn := nnn.isLt
  have hr := (s.reg 0).isLt
  simp only [indexedTarget, BitVec.toNat_add, BitVec.toNat_setWidth]
  omega

theorem State.linkAddress_eq (s : State) : s.linkAddress = s.pc + Claims.linkValue s.params.linkOffset := by
  unfold State.linkAddress
  cases s.params.linkOffset with
  | zero => exact (BitVec.add_zero s.pc).symm
  | two => rfl

/-! ## Skips -/

/-- A skip writes the pc alone: `pc + 4` when its test means a condition that holds, else `pc + 2` (R120). -/
theorem State.skipIf_eq {c : Bool} {p : Prop} [Decidable p] (h : c = true ↔ p) :
    s.skipIf c = { s with pc := if p then s.pc + 4 else s.pc + 2 } := by
  by_cases hp : p
  · rw [h.2 hp, if_pos hp]
    rfl
  · rw [Bool.eq_false_iff.2 (mt h.1 hp), if_neg hp]
    rfl

/-- The test of skip-if-eq compares the values (R126, R128). -/
theorem beq_iff_toNat_eq {a b : Byte} : (a == b) = true ↔ a.toNat = b.toNat :=
  beq_iff_eq.trans BitVec.toNat_inj.symm

/-- The test of skip-if-ne compares the values (R127, R129). -/
theorem bne_iff_toNat_ne {a b : Byte} : (a != b) = true ↔ a.toNat ≠ b.toNat :=
  bne_iff_ne.trans BitVec.toNat_inj.symm.not

/-! ## Calls and returns -/

theorem exec_ret_of_pos (h : 0 < s.sp.val) : exec .ret s =
    .next { s with sp := ⟨s.sp.val - 1, by omega⟩, pc := s.stack[s.sp.val - 1] } := by
  obtain ⟨t, ht, he⟩ := exec_effect .ret s
  cases he with
  | ret => exact ht
  | retEmpty h0 => omega

theorem exec_ret_of_empty (h : s.sp.val = 0) : exec .ret s = .next (s.raised .stackUnderflow) := by
  obtain ⟨t, ht, he⟩ := exec_effect .ret s
  cases he with
  | ret hpos => omega
  | retEmpty => exact ht

theorem exec_call_of_lt (nnn : Addr12) (h : s.sp.val < 16) : exec (.call nnn) s =
    .next { s with
      stack := s.stack.set s.sp.val s.linkAddress, sp := ⟨s.sp.val + 1, by omega⟩, pc := addrValue nnn } := by
  obtain ⟨t, ht, he⟩ := exec_effect (.call nnn) s
  cases he with
  | call => exact ht
  | callFull _ hfull => omega

theorem exec_call_of_full (nnn : Addr12) (h : s.sp.val = 16) :
    exec (.call nnn) s = .next (s.raised .stackOverflow) := by
  obtain ⟨t, ht, he⟩ := exec_effect (.call nnn) s
  cases he with
  | call _ hlt => omega
  | callFull => exact ht

end

end Sys2Proof.Machine

namespace Sys2Proof.Claims

open Sys2Proof.Machine

/-- The number of an instruction's word spells it (R95). -/
theorem spells_of_toNat_encode {w : Nat} {i : Instr} (h : (encode i).toNat = w) : Spells w i := by
  subst h
  rw [Spells, BitVec.ofNat_toNat, BitVec.setWidth_eq, decodeWord_encode]

/-- Settles O15: each test means the comparison of the values, and a skip writes the pc alone. -/
theorem skipsOnComparison : Obligations.SkipsOnComparison := by
  intro x y nn s
  refine ⟨spells_of_toNat_encode (toNat_layoutXI 0x3 x nn), spells_of_toNat_encode (toNat_layoutXI 0x4 x nn),
    spells_of_toNat_encode (toNat_layoutXY 0x5 x y 0x0), spells_of_toNat_encode (toNat_layoutXY 0x9 x y 0x0),
    ?_, ?_, ?_, ?_⟩
  · exact congrArg Host.Outcome.next (State.skipIf_eq beq_iff_toNat_eq)
  · exact congrArg Host.Outcome.next (State.skipIf_eq bne_iff_toNat_ne)
  · exact congrArg Host.Outcome.next (State.skipIf_eq beq_iff_toNat_eq)
  · exact congrArg Host.Outcome.next (State.skipIf_eq bne_iff_toNat_ne)

/-- Settles O16: with `sp = k + 1` the popped entry is `stack[k]`. -/
theorem returnPopsTheStack : Obligations.ReturnPopsTheStack := by
  refine fun s => ⟨rfl, fun k hk hsp => ?_, exec_ret_of_empty⟩
  refine ⟨_, exec_ret_of_pos (by omega), ?_, ?_⟩
  · simp [hsp]
  · simp [hsp]

/-- Settles O17: the push writes the link at the old `sp`, and the other entries are at other places. -/
theorem callPushesTheLink : Obligations.CallPushesTheLink := by
  refine fun nnn s => ⟨?_, exec_call_of_full nnn⟩
  rintro k hk rfl
  refine ⟨_, exec_call_of_lt nnn hk, toNat_addrValue nnn, rfl, ?_, fun j hj hne => ?_, rfl⟩
  · exact (Vector.getElem_set_self hk).trans s.linkAddress_eq
  · exact Vector.getElem_set_ne hk hj hne.symm

/-- Settles O18: the return pops the entry that the call pushed. -/
theorem callThenReturnComesBack : Obligations.CallThenReturnComesBack := by
  intro nnn s hsp
  refine ⟨_, _, exec_call_of_lt nnn hsp, exec_ret_of_pos (Nat.succ_pos _), ?_, fun j hj hne => ?_⟩
  · simp [State.linkAddress_eq]
  · exact Vector.getElem_set_ne hsp hj hne.symm

/-- Settles O14: the targets as numbers. -/
theorem jumpTargets : Obligations.JumpTargets := fun nnn s =>
  ⟨spells_of_toNat_encode (toNat_layoutA 0x1 nnn), spells_of_toNat_encode (toNat_layoutA 0xB nnn),
    ⟨_, rfl, rfl, toNat_addrValue nnn⟩, ⟨_, rfl, rfl, toNat_indexedTarget nnn s⟩⟩

/-- Settles O19: the run ends, then the pc moves on. -/
theorem haltEndsTheRun : Obligations.HaltEndsTheRun :=
  fun _ => ⟨_, rfl, ⟨rfl, rfl⟩, rfl⟩

end Sys2Proof.Claims
end

section
/-! Moves, arithmetic, logic, shifts and random: what the three ways of storing a result do to the registers, and the
results and flags as numbers (spec/41_alu.md R140 to R153). -/

namespace Sys2Proof.Machine

/-! ## Results as numbers -/

theorem add_eq_ofNat (a b : Byte) : a + b = BitVec.ofNat 8 ((a.toNat + b.toNat) % 256) := by
  bv_omega

theorem sub_eq_ofNat (a b : Byte) : a - b = BitVec.ofNat 8 ((a.toNat + 256 - b.toNat) % 256) := by
  bv_omega

theorem ushiftRight_one_eq_ofNat (a : Byte) : a >>> 1 = BitVec.ofNat 8 (a.toNat / 2) := by
  bv_omega

theorem shiftLeft_one_eq_ofNat (a : Byte) : a <<< 1 = BitVec.ofNat 8 (a.toNat * 2 % 256) := by
  bv_omega

/-! ## Flags as conditions -/

theorem carryFlag_iff {a b : Byte} : carryFlag a b = true ↔ a.toNat + b.toNat > 255 := decide_eq_true_iff

theorem noBorrowFlag_iff {a b : Byte} : noBorrowFlag a b = true ↔ a.toNat ≥ b.toNat := decide_eq_true_iff

theorem revsubFlag_iff {a b : Byte} : revsubFlag a b = true ↔ b.toNat > a.toNat := decide_eq_true_iff

/-- Bit 0 is the parity (R149). -/
theorem lsbFlag_iff {a : Byte} : lsbFlag a = true ↔ a.toNat % 2 = 1 := by
  simp [lsbFlag, BitVec.getLsbD, Nat.testBit_zero]

/-- Bit 7, the most significant, is set from 128 up (R151). -/
theorem msbFlag_iff {a : Byte} : msbFlag a = true ↔ a.toNat ≥ 128 := by
  rw [msbFlag, ← BitVec.msb_eq_getLsbD_last, BitVec.msb_eq_decide, decide_eq_true_iff]

theorem flagByte_eq_bit {c : Bool} {p : Prop} [Decidable p] (h : c = true ↔ p) : flagByte c = Claims.bit p :=
  if_congr h rfl rfl

end Sys2Proof.Machine

namespace Sys2Proof.Claims

open Sys2Proof.Machine

/-! ## The words -/

/-- The arithmetic word `8XYN` spells what its function nibble selects (R75). -/
theorem spells_of_decode8 {x y : Nibble} {i : Instr} {w : Nat} (n : Nibble) (hw : w = 0x8000 + n.toNat)
    (h : decode8 x y n = some i) : Spells (w + x.toNat * 256 + y.toNat * 16) i := by
  have hword : BitVec.ofNat 16 (w + x.toNat * 256 + y.toNat * 16) = layoutXY 0x8 x y n := by
    have hlayout := toNat_layoutXY 0x8 x y n
    bv_omega
  simp [Spells, hword, decodeWord_op8, h]

/-! ## Storing a result (R140) -/

section
variable {s : State} {x : Nibble} {v w : Byte} {c : Bool} {p : Prop} [Decidable p]

theorem storeResult_writes (x : Nibble) (v : Byte) (s : State) :
    ∃ t, storeResult x v s = .next t ∧ RegsAndPc s t ∧ WritesOne s t x v :=
  ⟨_, storeResult_eq x v s, rfl, fun r => s.reg_writeReg x r v⟩

/-- The flag, written last, stays when the result goes to VF too (D5). -/
theorem storeResultThenFlag_writes (hv : v = w) (hc : c = true ↔ p) :
    ∃ t, storeResultThenFlag x v c s = .next t ∧ RegsAndPc s t ∧ WritesResultThenFlag s t x w (bit p) := by
  refine ⟨_, storeResultThenFlag_eq x v c s, rfl, fun r => ?_⟩
  rw [State.advance_reg, State.reg_writeReg, State.reg_writeReg, flagByte_eq_bit hc, hv]

/-- The result, written last, stays when it goes to VF (D5). -/
theorem storeFlagThenResult_writes (hv : v = w) (hc : c = true ↔ p) :
    ∃ t, storeFlagThenResult x v c s = .next t ∧ RegsAndPc s t ∧ WritesFlagThenResult s t x w (bit p) := by
  refine ⟨_, storeFlagThenResult_eq x v c s, rfl, fun r => ?_⟩
  rw [State.advance_reg, State.reg_writeReg, State.reg_writeReg, flagByte_eq_bit hc, hv]

end

/-! ## The instructions -/

/-- Settles O20: each of the five stores one result. -/
theorem movesAndLogic : Obligations.MovesAndLogic := fun x y nn s =>
  ⟨spells_of_toNat_encode (toNat_layoutXI 0x6 x nn), spells_of_decode8 0x0 rfl rfl, spells_of_decode8 0x1 rfl rfl,
    spells_of_decode8 0x2 rfl rfl, spells_of_decode8 0x3 rfl rfl,
    storeResult_writes x nn s, storeResult_writes x (s.reg y) s, storeResult_writes x (s.reg x ||| s.reg y) s,
    storeResult_writes x (s.reg x &&& s.reg y) s, storeResult_writes x (s.reg x ^^^ s.reg y) s⟩

/-- Settles O21: the 8-bit sum is the sum modulo 256. -/
theorem addImmediateWraps : Obligations.AddImmediateWraps := by
  refine fun x nn s => ⟨spells_of_toNat_encode (toNat_layoutXI 0x7 x nn), ?_⟩
  rw [← add_eq_ofNat]
  exact storeResult_writes x (s.reg x + nn) s

/-- Settles O22: the sum, then the carry. -/
theorem addRegisterCarry : Obligations.AddRegisterCarry :=
  fun _ _ _ => ⟨spells_of_decode8 0x4 rfl rfl, storeResultThenFlag_writes (add_eq_ofNat _ _) carryFlag_iff⟩

/-- Settles O23: the difference, then whether no borrow occurred. -/
theorem subtractBorrow : Obligations.SubtractBorrow :=
  fun _ _ _ => ⟨spells_of_decode8 0x5 rfl rfl, storeResultThenFlag_writes (sub_eq_ofNat _ _) noBorrowFlag_iff⟩

/-- Settles O24: the difference the other way round, then the strict comparison. -/
theorem reverseSubtractStrict : Obligations.ReverseSubtractStrict :=
  fun _ _ _ => ⟨spells_of_decode8 0x7 rfl rfl, storeResultThenFlag_writes (sub_eq_ofNat _ _) revsubFlag_iff⟩

/-- Settles O25: the bit shifted out, then the shifted value; the decoder ignores `Y`. -/
theorem shiftsByOne : Obligations.ShiftsByOne := fun _ _ =>
  ⟨fun _ => ⟨spells_of_decode8 0x6 rfl rfl, spells_of_decode8 0xE rfl rfl⟩,
    storeFlagThenResult_writes (ushiftRight_one_eq_ofNat _) lsbFlag_iff,
    storeFlagThenResult_writes (shiftLeft_one_eq_ofNat _) msbFlag_iff⟩

/-- Settles O26: the draw is counted, then the masked byte is stored; the mask and its complement share no bit. -/
theorem randomIsMasked : Obligations.RandomIsMasked := by
  refine fun x nn s => ⟨spells_of_toNat_encode (toNat_layoutXI 0xC x nn), ?_⟩
  obtain ⟨t, ht, hframe, hreg⟩ := storeResult_writes x (s.randByte &&& nn) s.countDraw
  refine ⟨t, ht, hframe, hreg, ?_⟩
  rw [hreg x, if_pos rfl, BitVec.and_assoc, BitVec.and_not_self]
  exact BitVec.and_zero

end Sys2Proof.Claims
end

section
/-! Index register and memory instructions: addresses as numbers, what a store from `I` does on each side of its range
check, and what a block load leaves in the registers (spec/42_index_memory.md R160 to R166). -/

namespace Sys2Proof.Machine

section
variable {s : State} {x : Nibble}

/-! ## Addresses and digits as numbers -/

/-- The address of a digit's sprite, at most 75, so nothing wraps (R163). -/
theorem toNat_spriteAddress (v : Byte) : (spriteAddress v).toNat = v.toNat % 16 * 5 := by
  have hdigit : (v &&& 0x0F).toNat = v.toNat % 16 := Nat.and_two_pow_sub_one_eq_mod v.toNat 4
  simp only [spriteAddress, BitVec.toNat_mul, BitVec.toNat_setWidth, hdigit, BitVec.reduceToNat]
  omega

/-- `add-index` wraps modulo 65536 (R162, D8). -/
theorem toNat_add_setWidth (v : Word) (a : Byte) : (v + a.setWidth 16).toNat = (v.toNat + a.toNat) % 65536 := by
  rw [BitVec.toNat_add, BitVec.toNat_setWidth_of_le (by decide)]

/-- The digits of `bcd` as numbers, hundreds first (R166). -/
theorem toNat_bcdDigits (a : Byte) : (bcdDigits a)[0].toNat = a.toNat / 100 ∧
    (bcdDigits a)[1].toNat = a.toNat / 10 % 10 ∧ (bcdDigits a)[2].toNat = a.toNat % 10 :=
  ⟨rfl, rfl, rfl⟩

/-! ## Registers as a block of bytes -/

/-- Byte `k` of the block that `dump` stores is `x[k]` (R164). -/
theorem getElem_regRange {r : Nibble} (h : r.toNat < (regRange x s).length) : (regRange x s)[r.toNat] = s.reg r := by
  simp [regRange, State.reg]

/-- A load of `n` bytes of memory from `x[0]` up (R165). -/
theorem State.reg_setRegs_loadRegs_readBytes (s : State) (base n : Nat) (r : Nibble) :
    (s.setRegs (loadRegs s.x 0 (s.mem.readBytes base n))).reg r =
      if r.toNat < n then s.mem.read (base + r.toNat) else s.reg r := by
  split
  next h =>
    have hk : r.toNat < (s.mem.readBytes base n).length := by rwa [Memory.length_readBytes]
    simp [State.reg, getElem_loadRegs, List.getElem?_eq_getElem hk, Memory.getElem_readBytes]
  next h => exact State.reg_setRegs_loadRegs (by simpa using h) s

/-! ## Stores from `I` -/

/-- A block write inside the memory stores its bytes and leaves the others (R53, R54). -/
theorem stores_of_mem_eq {t : State} {base : Nat} {vs : List Byte} (hr : base + vs.length ≤ 4096)
    (hm : t.mem = s.mem.writeBytes base vs) : Claims.Stores s t base vs := by
  refine ⟨fun k hk => ?_, fun a ha => ?_⟩ <;> rw [hm, Memory.read_writeBytes _ _ _ _ hr]
  · simp [hk]
  · split
    · have hpast : vs[a - base]? = none := List.getElem?_eq_none (by omega)
      rw [hpast, Option.getD_none]
    · rfl

/-- With its last byte inside the memory the block is stored and the pc moves on (R160). -/
theorem storeFromIndex_of_lt {n : Nat} {vs : List Byte} (hlen : vs.length = n + 1) (h : s.dataBase + n < 4096) :
    ∃ t, storeFromIndex vs s = .next t ∧ Claims.MemAndPc s t ∧ Claims.Stores s t s.dataBase vs := by
  have hr : s.index.toNat + vs.length ≤ 4096 := hlen ▸ h
  rcases storeFromIndex_cases vs s with ⟨ht, -⟩ | ⟨-, -, hout⟩
  · exact ⟨_, ht, rfl, stores_of_mem_eq hr rfl⟩
  · exact absurd hr (Nat.not_le.2 hout)

/-- With its last byte outside the memory nothing is stored (R160, D9). -/
theorem storeFromIndex_of_ge {n : Nat} {vs : List Byte} (hlen : vs.length = n + 1) (h : 4096 ≤ s.dataBase + n) :
    storeFromIndex vs s = Claims.errorOutcome .outOfBoundsAccess s := by
  have hout : 4096 < s.index.toNat + vs.length := hlen ▸ Nat.lt_succ_of_le h
  rcases storeFromIndex_cases vs s with ⟨-, rfl | hr⟩ | ⟨ht, -, -⟩
  · cases hlen
  · exact absurd hr (Nat.not_le.2 hout)
  · exact ht

/-! ## Fills by mode -/

theorem exec_fill_of_load (hm : s.params.fillMode = .load) (h : s.dataBase + x.toNat < 4096) : exec (.fill x) s =
    .next (s.setRegs (loadRegs s.x 0 (s.mem.readBytes s.dataBase (x.toNat + 1)))).advance := by
  obtain ⟨t, ht, he⟩ := exec_effect (.fill x) s
  cases he with
  | fillLoad => exact ht
  | fillStore _ hm' => simp [hm] at hm'
  | fillOut _ hout => exact absurd h (Nat.not_lt.2 (Nat.le_of_lt_succ hout))

theorem exec_fill_of_store (hm : s.params.fillMode = .store) : exec (.fill x) s = exec (.dump x) s := by
  simp [exec, execFill, execDump, hm]

theorem exec_fill_of_ge (h : 4096 ≤ s.dataBase + x.toNat) :
    exec (.fill x) s = Claims.errorOutcome .outOfBoundsAccess s := by
  obtain ⟨t, ht, he⟩ := exec_effect (.fill x) s
  cases he with
  | fillLoad _ _ hr | fillStore _ _ hr => exact absurd h (Nat.not_le.2 hr)
  | fillOut => exact ht

/-! ## `bcd` by mode -/

theorem exec_bcd_of_full (hm : s.params.bcdMode = .full) :
    exec (.bcd x) s = storeFromIndex (bcdDigits (s.reg x)) s := by
  simp [exec, execBcd, hm]

theorem exec_bcd_of_stub (hm : s.params.bcdMode = .stub) : exec (.bcd x) s = .next s.advance := by
  simp [exec, execBcd, hm]

end

end Sys2Proof.Machine

namespace Sys2Proof.Claims

open Sys2Proof.Machine

/-- A word of format XS spells the instruction of its leading nibble and function byte (R71, R75). -/
theorem spells_of_layoutXS {x : Nibble} {i : Instr} {w : Nat} (op : Nibble) (lo : Byte)
    (hw : w = op.toNat * 4096 + lo.toNat) (h : encode i = layoutXS op x lo) : Spells (w + x.toNat * 256) i := by
  refine spells_of_toNat_encode ?_
  rw [h, toNat_layoutXS, hw]
  omega

section
variable {x : Nibble} {s : State}

/-- In range, `dump` stores the registers up to `x[X]` (R164). -/
theorem exec_dump_stores (h : s.dataBase + x.toNat < 4096) :
    ∃ t, exec (.dump x) s = .next t ∧ MemAndPc s t ∧
      (∀ k : Nibble, k.toNat ≤ x.toNat → t.mem.read (s.dataBase + k.toNat) = s.reg k) ∧
      (∀ a, a < s.dataBase ∨ s.dataBase + x.toNat < a → t.mem.read a = s.mem.read a) := by
  have hlen := length_regRange x s
  obtain ⟨t, ht, hframe, hin, hout⟩ := storeFromIndex_of_lt hlen h
  refine ⟨t, ht, hframe, fun k hk => ?_, fun a ha => hout a (ha.imp_right fun hlt => hlen ▸ hlt)⟩
  exact (hin k.toNat (hlen ▸ Nat.lt_succ_of_le hk)).trans (getElem_regRange _)

/-- In range and in load mode, `fill` loads the registers up to `x[X]` (R165). -/
theorem exec_fill_loads (h : s.dataBase + x.toNat < 4096) (hm : s.params.fillMode = .load) :
    ∃ t, exec (.fill x) s = .next t ∧ RegsAndPc s t ∧
      ∀ r : Nibble, t.reg r = if r.toNat ≤ x.toNat then s.mem.read (s.dataBase + r.toNat) else s.reg r := by
  refine ⟨_, exec_fill_of_load hm h, rfl, fun r => ?_⟩
  rw [State.advance_reg, State.reg_setRegs_loadRegs_readBytes]
  exact if_congr Nat.lt_succ_iff rfl rfl

end

/-- Settles O27: the address literal and the digit's address as numbers. -/
theorem indexIsSet : Obligations.IndexIsSet := fun nnn x s =>
  ⟨spells_of_toNat_encode (toNat_layoutA 0xA nnn), spells_of_layoutXS 0xF 0x29 rfl rfl,
    ⟨_, rfl, rfl, toNat_addrValue nnn⟩, ⟨_, rfl, rfl, toNat_spriteAddress (s.reg x)⟩⟩

/-- Settles O28: the 16-bit sum is the sum modulo 65536. -/
theorem addIndexWraps : Obligations.AddIndexWraps := fun x s =>
  ⟨_, rfl, rfl, toNat_add_setWidth s.index (s.reg x)⟩

/-- Settles O29: a store from `I` of the `X + 1` bytes of the register range. -/
theorem dumpStoresRegisters : Obligations.DumpStoresRegisters := fun x s =>
  ⟨spells_of_layoutXS 0xF 0x55 rfl rfl, exec_dump_stores, storeFromIndex_of_ge (length_regRange x s)⟩

/-- Settles O30: store mode is `dump`, which answers a next state in range. -/
theorem fillByMode : Obligations.FillByMode := by
  refine fun x s => ⟨exec_fill_loads, fun h hm => ?_, exec_fill_of_ge⟩
  obtain ⟨t, ht, -⟩ := exec_dump_stores h
  exact ⟨t, (exec_fill_of_store hm).trans ht, ht⟩

/-- Settles O31: full mode is a store from `I` of the three digits. -/
theorem bcdDigits : Obligations.BcdDigits := by
  refine fun x s => ⟨fun hm h => ?_, fun hm h => ?_, fun hm => exec_bcd_of_stub hm⟩
  · obtain ⟨t, ht, hframe, hin, hout⟩ := storeFromIndex_of_lt (length_bcdDigits (s.reg x)) h
    obtain ⟨hhundreds, htens, hones⟩ := toNat_bcdDigits (s.reg x)
    refine ⟨t, (exec_bcd_of_full hm).trans ht, hframe, ?_, ?_, ?_, hout⟩
    · exact (congrArg BitVec.toNat (hin 0 (by simp))).trans hhundreds
    · exact (congrArg BitVec.toNat (hin 1 (by simp))).trans htens
    · exact (congrArg BitVec.toNat (hin 2 (by simp))).trans hones
  · exact (exec_bcd_of_full hm).trans (storeFromIndex_of_ge (length_bcdDigits (s.reg x)) h)

/-- Settles O32: the bytes that the fill loads are the registers that the dump stored. -/
theorem dumpThenFillRestores : Obligations.DumpThenFillRestores := by
  intro x s x' h hm
  obtain ⟨t, ht, hframe, hstored, -⟩ := exec_dump_stores h
  have hindex : t.index = s.index := by rw [hframe]
  have hparams : t.params = s.params := by rw [hframe]
  obtain ⟨u, hu, -, hloaded⟩ := exec_fill_loads (s := { t with x := x' }) (x := x)
    (by rwa [State.dataBase, hindex]) (by rwa [hparams])
  refine ⟨t, u, ht, hu, fun r hr => ?_⟩
  rw [hloaded, if_pos hr, State.dataBase, hindex]
  exact hstored r hr

end Sys2Proof.Claims
end

section
/-! Display instructions: pixels as vector entries, what a draw does on each side of its bounds check, and the sprite it
plots as the statements' `spriteBit` (spec/43_display.md R180 to R184). -/

namespace Sys2Proof.Machine

section
variable {s t : State} {x y n : Nibble}

/-- On the screen a pixel is the entry of the bitmap (R180). -/
theorem Display.getElem_eq_pixel (d : Display) {row col : Nat} (hr : row < 32) (hc : col < 64) :
    d[row][col] = d.pixel row col := by
  rw [Display.pixel, dif_pos ⟨hr, hc⟩]

/-! ## The bounds check of `draw` -/

theorem spriteInBounds_iff : Claims.spriteInBounds s n ↔ n.toNat = 0 ∨ s.index.toNat + n.toNat ≤ 4096 :=
  or_congr_left BitVec.toNat_inj.symm

/-- What `draw` makes of the display, and whether it turns a lit pixel off (R183). -/
def drawnSprite (s : State) (x y n : Nibble) : Display × Bool :=
  plotSprite (s.reg x).toNat (s.reg y).toNat (s.mem.readBytes s.index.toNat n.toNat) (s.disp, false)

theorem exec_draw_of_inBounds (h : Claims.spriteInBounds s n) : exec (.draw x y n) s =
    .next ((s.setDisp (drawnSprite s x y n).1).writeReg vf (flagByte (drawnSprite s x y n).2)).advance := by
  obtain ⟨t, ht, he⟩ := exec_effect (.draw x y n) s
  cases he with
  | draw _ _ _ _ _ hr =>
    cases hr
    exact ht
  | drawOut _ _ _ h0 hout => exact absurd (spriteInBounds_iff.1 h) (not_or_intro h0 (Nat.not_le.2 hout))

theorem exec_draw_of_not_inBounds (h : ¬ Claims.spriteInBounds s n) :
    exec (.draw x y n) s = Claims.errorOutcome .outOfBoundsAccess s := by
  obtain ⟨t, ht, he⟩ := exec_effect (.draw x y n) s
  cases he with
  | draw _ _ _ hin => exact absurd (spriteInBounds_iff.2 hin) h
  | drawOut => exact ht

/-! ## The sprite -/

/-- Byte `k` of a block read, and zero past its end. -/
theorem Memory.getD_readBytes (m : Memory) (base n k : Nat) :
    ((m.readBytes base n)[k]?).getD 0 = if k < n then m.read (base + k) else 0 := by
  split
  next h =>
    have hk : k < (m.readBytes base n).length := by rwa [Memory.length_readBytes]
    rw [List.getElem?_eq_getElem hk, Option.getD_some, Memory.getElem_readBytes]
  next h => rw [List.getElem?_eq_none (by simpa using h), Option.getD_none]

/-- On the screen the bytes read from `I` cover the pixels under a 1 bit of the sprite, and no others (R183, R184). -/
theorem spriteCovers_readBytes (row col : Nat) :
    spriteCovers (s.reg x).toNat (s.reg y).toNat (s.mem.readBytes s.index.toNat n.toNat) row col =
      (decide (row < 32 ∧ col < 64) && Claims.spriteBit s x y n row col) := by
  unfold spriteCovers Claims.spriteBit
  rw [Memory.getD_readBytes]
  by_cases hy : (s.reg y).toNat ≤ row
  · by_cases hn : row < (s.reg y).toNat + n.toNat
    · have hk : row - (s.reg y).toNat < n.toNat := by omega
      simp [hy, hn, hk, Bool.and_assoc]
    · have hk : ¬ row - (s.reg y).toNat < n.toNat := by omega
      simp [hn, hk]
  · simp [hy]

/-- A pixel on the screen after the sprite (R183). -/
theorem pixel_drawnSprite {row col : Nat} (hr : row < 32) (hc : col < 64) :
    (drawnSprite s x y n).1.pixel row col = (s.disp.pixel row col ^^ Claims.spriteBit s x y n row col) := by
  rw [drawnSprite, pixel_plotSprite, spriteCovers_readBytes, decide_eq_true ⟨hr, hc⟩, Bool.true_and]

theorem hit_drawnSprite : (drawnSprite s x y n).2 = true ↔ Claims.collides s x y n := by
  simp [drawnSprite, hit_plotSprite, spriteCovers_readBytes, Claims.collides, and_assoc]

/-- A draw reads its sprite and coordinates alone: their equality makes the same sprite (R183). -/
theorem spriteBit_congr (hx : t.reg x = s.reg x) (hy : t.reg y = s.reg y) (hm : t.mem = s.mem)
    (hi : t.index = s.index) (row col : Nat) :
    Claims.spriteBit t x y n row col = Claims.spriteBit s x y n row col := by
  simp only [Claims.spriteBit, hx, hy, hm, hi]

end

end Sys2Proof.Machine

namespace Sys2Proof.Claims

open Sys2Proof.Machine

/-- Settles O36: what is drawn is `drawnSprite`, whose hit is the collision. -/
theorem drawXorsTheSprite : Obligations.DrawXorsTheSprite := by
  refine fun x y n s => ⟨fun h => ?_, exec_draw_of_not_inBounds⟩
  refine ⟨_, exec_draw_of_inBounds h, rfl, fun row col => pixel_drawnSprite, fun r hr => ?_, fun hhit => ?_,
    fun hmiss => ?_⟩
  · rw [State.advance_reg, State.reg_writeReg, if_neg hr, State.setDisp_reg]
  · rw [State.advance_reg, State.reg_writeReg, if_pos rfl, hit_drawnSprite.2 hhit]
    rfl
  · rw [State.advance_reg, State.reg_writeReg, if_pos rfl, Bool.eq_false_iff.2 (mt hit_drawnSprite.1 hmiss)]
    rfl

/-- Settles O37: both draws plot the same sprite, and what the second turns off is what the first lit. -/
theorem drawTwiceRestoresTheDisplay : Obligations.DrawTwiceRestoresTheDisplay := by
  intro x y n s hx hy hs
  obtain ⟨t, ht, htframe, htpixel, htreg, -, -⟩ := (drawXorsTheSprite x y n s).1 hs
  have hmem : t.mem = s.mem := by rw [htframe]
  have hindex : t.index = s.index := by rw [htframe]
  have hsprite := spriteBit_congr (n := n) (htreg x hx) (htreg y hy) hmem hindex
  obtain ⟨u, hu, -, hupixel, -, huhit, humiss⟩ := (drawXorsTheSprite x y n t).1 (by rwa [spriteInBounds, hindex])
  refine ⟨t, u, ht, hu, Display.ext_pixel _ _ fun row col hr hc => ?_, ?_⟩
  · rw [hupixel row col hr hc, htpixel row col hr hc, hsprite, Bool.xor_assoc, Bool.xor_self, Bool.xor_false]
  · have hflag : u.reg 15 = 1 ↔ collides t x y n :=
      ⟨fun hone => by_contra fun hmiss => absurd (hone.symm.trans (humiss hmiss)) (by decide), huhit⟩
    have hlit : ∀ row col, row < 32 → col < 64 → (spriteBit t x y n row col = true ∧ t.disp.pixel row col = true ↔
        s.disp.pixel row col = false ∧ t.disp.pixel row col = true) := by
      intro row col hr hc
      rw [hsprite, htpixel row col hr hc]
      cases s.disp.pixel row col <;> simp
    rw [hflag]
    exact exists₂_congr fun row col => and_congr_right fun hr => and_congr_right fun hc => hlit row col hr hc

/-- Settles O35: the toggle of the pixel named by the two registers. -/
theorem togglePixelClips : Obligations.TogglePixelClips := by
  refine fun x y s => ⟨_, rfl, rfl, fun row col hr hc => ?_⟩
  simp only [Display.getElem_eq_pixel, State.advance_disp, State.setDisp_disp, Display.pixel_toggle]
  by_cases h : row = (s.reg y).toNat ∧ col = (s.reg x).toNat
  · obtain ⟨rfl, rfl⟩ := h
    simp [hr, hc]
  · rw [if_neg h, if_neg fun ⟨hrow, hcol, _⟩ => h ⟨hrow, hcol⟩]

/-- Settles O34: every pixel of the blank display is false. -/
theorem clearScreenBlanks : Obligations.ClearScreenBlanks := by
  refine fun s => ⟨rfl, _, rfl, rfl, fun row col hr hc => ?_⟩
  rw [Display.getElem_eq_pixel]
  exact Display.pixel_blank row col

end Sys2Proof.Claims
end

section
/-! Key and timer instructions: the key a register names, `await-key` by mode and keys, and the sound timer, which no
instruction reads (spec/44_keys_timers.md R190 to R196). -/

namespace Sys2Proof.Machine

section
variable {s t : State} {x k : Nibble} {i : Instr}

/-! ## Keys -/

/-- The key a register names is its low nibble, the value modulo 16 (R190). -/
theorem toNat_keyIndex (x : Nibble) (s : State) : (keyIndex x s).toNat = (s.reg x).toNat % 16 :=
  BitVec.extractLsb'_toNat ..

theorem State.keyDown_keyIndex (x : Nibble) (s : State) :
    s.keyDown (keyIndex x s) = s.keys[(s.reg x).toNat % 16] := by
  simp only [State.keyDown, toNat_keyIndex]

/-- A pressed key with no lower one pressed is the least key (R193, D18). -/
theorem State.leastKey_eq_some_of_least (hk : s.keyDown k = true)
    (hbelow : ∀ j : Nibble, j.toNat < k.toNat → s.keyDown j = false) : s.leastKey = some k := by
  cases hl : s.leastKey with
  | none => simp [s.leastKey_eq_none hl k] at hk
  | some l =>
    obtain ⟨hldown, hlbelow⟩ := s.leastKey_eq_some l hl
    rcases Nat.lt_trichotomy l.toNat k.toNat with hlt | heq | hgt
    · simp [hbelow l hlt] at hldown
    · rw [BitVec.eq_of_toNat_eq heq]
    · simp [hlbelow k hgt] at hk

theorem State.leastKey_eq_none_of_released (h : ∀ k : Nibble, s.keyDown k = false) : s.leastKey = none := by
  refine Option.eq_none_iff_forall_ne_some.2 fun k hk => ?_
  simpa [h k] using (s.leastKey_eq_some k hk).1

/-! ## `await-key` by mode -/

theorem exec_awaitKey_of_pressed (hm : s.params.awaitKeyMode = .block) (hk : s.leastKey = some k) :
    exec (.awaitKey x) s = .next (s.writeReg x (k.setWidth 8)).advance := by
  simp [exec, execAwaitKey, hm, hk]

theorem exec_awaitKey_of_released (hm : s.params.awaitKeyMode = .block) (hk : s.leastKey = none) :
    exec (.awaitKey x) s = .next s := by
  simp [exec, execAwaitKey, hm, hk]

theorem exec_awaitKey_of_stub (hm : s.params.awaitKeyMode = .stub) : exec (.awaitKey x) s = .next s.advance := by
  simp [exec, execAwaitKey, hm]

/-! ## Stores from `I` -/

/-- A block that fits in the memory is stored (R160). -/
theorem storeFromIndex_of_le {vs : List Byte} (h : s.index.toNat + vs.length ≤ 4096) :
    storeFromIndex vs s = .next (s.setMem (s.mem.writeBytes s.index.toNat vs)).advance := by
  rcases storeFromIndex_cases vs s with ⟨ht, -⟩ | ⟨-, -, hout⟩
  · exact ht
  · exact absurd h (Nat.not_le.2 hout)

/-! ## The sound timer -/

theorem State.skipIf_setSoundTimer (c : Bool) (v : Byte) (s : State) :
    (s.setSoundTimer v).skipIf c = (s.skipIf c).setSoundTimer v := by
  cases c <;> rfl

/-- Whatever `st` holds, an effect's guard is the same, and so is its next state but for what `set-sound` writes
(R196). -/
theorem Effect.exec_setSoundTimer (h : Effect s i t) (hi : ∀ x, i ≠ .setSound x) (v : Byte) :
    exec i (s.setSoundTimer v) = .next (t.setSoundTimer v) := by
  cases h
  case setSound x => exact absurd rfl (hi x)
  case ret hsp => exact exec_ret_of_pos (s := s.setSoundTimer v) hsp
  case retEmpty hsp => exact exec_ret_of_empty hsp
  case call nnn hsp => exact exec_call_of_lt (s := s.setSoundTimer v) nnn hsp
  case callFull nnn hsp => exact exec_call_of_full nnn hsp
  case skipIfEqImm | skipIfNeImm | skipIfEqReg | skipIfNeReg | skipIfKey | skipIfNotKey =>
    exact congrArg Host.Outcome.next (State.skipIf_setSoundTimer _ v s)
  case draw hin r hr =>
    cases hr
    exact exec_draw_of_inBounds (spriteInBounds_iff.2 hin)
  case drawOut h0 hout =>
    exact exec_draw_of_not_inBounds (mt spriteInBounds_iff.1 (not_or_intro h0 (Nat.not_le.2 hout)))
  case awaitKeyFound hm hk => exact exec_awaitKey_of_pressed hm hk
  case awaitKeyWait hm hk => exact exec_awaitKey_of_released hm hk
  case awaitKeyStub hm => exact exec_awaitKey_of_stub hm
  case bcd hm hle =>
    rw [exec_bcd_of_full (s := s.setSoundTimer v) hm]
    exact storeFromIndex_of_le hle
  case bcdOut x hm hout =>
    rw [exec_bcd_of_full (s := s.setSoundTimer v) hm]
    exact storeFromIndex_of_ge (length_bcdDigits (s.reg x)) (Nat.le_of_lt_succ hout)
  case bcdStub hm => exact exec_bcd_of_stub hm
  case dump x hle => exact storeFromIndex_of_le (by rwa [length_regRange])
  case dumpOut x hout => exact storeFromIndex_of_ge (length_regRange x s) (Nat.le_of_lt_succ hout)
  case fillLoad hm hle => exact exec_fill_of_load hm hle
  case fillStore hm hle =>
    rw [exec_fill_of_store (s := s.setSoundTimer v) hm]
    exact storeFromIndex_of_le (by rwa [length_regRange])
  case fillOut hout => exact exec_fill_of_ge (Nat.le_of_lt_succ hout)
  all_goals rfl

end

end Sys2Proof.Machine

namespace Sys2Proof.Claims

open Sys2Proof.Machine

/-- Settles O38: each test means that the named key is pressed, or is not, and a skip writes the pc alone. -/
theorem skipsOnKeys : Obligations.SkipsOnKeys := by
  rintro x s _ h rfl
  refine ⟨spells_of_layoutXS 0xE 0x9E rfl rfl, spells_of_layoutXS 0xE 0xA1 rfl rfl, ?_, ?_⟩
  · exact congrArg Host.Outcome.next (State.skipIf_eq (by rw [State.keyDown_keyIndex]))
  · exact congrArg Host.Outcome.next (State.skipIf_eq (by rw [State.keyDown_keyIndex, Bool.not_eq_true']))

/-- Settles O39: the keys of the premises determine the least key. -/
theorem awaitKeyByMode : Obligations.AwaitKeyByMode := by
  refine fun x s => ⟨fun k hm hk hbelow => ?_, fun hm hup => ?_, exec_awaitKey_of_stub⟩
  · rw [exec_awaitKey_of_pressed hm (State.leastKey_eq_some_of_least hk hbelow), BitVec.ofNat_toNat]
    exact storeResult_writes x (k.setWidth 8) s
  · exact exec_awaitKey_of_released hm (State.leastKey_eq_none_of_released hup)

/-- Settles O40: one stores `dt` as a result, the other writes it. -/
theorem delayTimerRegister : Obligations.DelayTimerRegister := fun x s =>
  ⟨spells_of_layoutXS 0xF 0x07 rfl rfl, spells_of_layoutXS 0xF 0x15 rfl rfl, storeResult_writes x s.dt s, rfl⟩

/-- Settles O49: `set-sound` overwrites the other value, and no other effect depends on it. -/
theorem soundTimerWrittenNeverRead : Obligations.SoundTimerWrittenNeverRead := by
  refine ⟨fun x s => ⟨spells_of_layoutXS 0xF 0x18 rfl rfl, rfl⟩, fun i s t v h => ?_⟩
  split
  next x =>
    cases h
    rfl
  next hi => exact (effect_of_exec h).exec_setSoundTimer hi v

end Sys2Proof.Claims
end

section
/-! Runtime errors: which error each effect of an instruction meets, and the error that a running step meets before and
in its execution (spec/60_exceptions.md R200 to R205). -/

namespace Sys2Proof.Machine

section
variable {s t : State} {i : Instr}

/-- An effect meets no error and records none, or it is the entry of the error that the table gives (R200, R204). -/
theorem Effect.instrError_cases (h : Effect s i t) :
    (Claims.instrError i s = none ∧ (s.err = none → t.err = none)) ∨
    ∃ e, Claims.instrError i s = some e ∧ t = s.raised e := by
  cases h
  case ret | call | draw | bcd | dump | fillLoad | fillStore => exact .inl ⟨if_neg (by omega), id⟩
  case bcdStub hm => exact .inl ⟨if_neg (by simp [hm]), id⟩
  case retEmpty | callFull | drawOut | dumpOut | fillOut => exact .inr ⟨_, if_pos (by omega), rfl⟩
  case bcdOut hm hout => exact .inr ⟨_, if_pos ⟨hm, by omega⟩, rfl⟩
  all_goals exact .inl ⟨rfl, by simp⟩

/-- An illegal word at the pc of a running machine is an error's entry (R75, R203). -/
theorem step_of_illegalWord (hrun : s.run = .running) (hpc : s.pc.toNat ≤ 4094)
    (hw : decodeWord (Claims.wordAtPc s) = none) : step s = Claims.errorOutcome .invalidOpcode s := by
  rcases step_cases s with ⟨hhalted, -⟩ | ⟨-, hpast, -⟩ | ⟨-, -, -, hs⟩ | ⟨i, -, -, hi, -⟩
  · cases hrun.symm.trans hhalted
  · omega
  · exact hs
  · cases hw.symm.trans hi

/-- A legal word at the pc of a running machine is executed (R73). -/
theorem step_of_legalWord (hrun : s.run = .running) (hpc : s.pc.toNat ≤ 4094)
    (hw : decodeWord (Claims.wordAtPc s) = some i) : step s = exec i s := by
  rcases step_cases s with ⟨hhalted, -⟩ | ⟨-, hpast, -⟩ | ⟨-, -, hillegal, -⟩ | ⟨j, -, -, hj, hs⟩
  · cases hrun.symm.trans hhalted
  · omega
  · cases hw.symm.trans hillegal
  · cases hw.symm.trans hj
    exact hs

theorem stepError_of_illegalWord (hpc : s.pc.toNat ≤ 4094) (hw : decodeWord (Claims.wordAtPc s) = none) :
    Claims.stepError s = some .invalidOpcode := by
  rw [Claims.stepError, if_neg (by omega), hw]

theorem stepError_of_legalWord (hpc : s.pc.toNat ≤ 4094) (hw : decodeWord (Claims.wordAtPc s) = some i) :
    Claims.stepError s = Claims.instrError i s := by
  rw [Claims.stepError, if_neg (by omega), hw]

/-- A running step meets its error before it executes, or the instruction it executes meets it (R205). -/
theorem stepError_cases (hrun : s.run = .running) :
    (∃ e, Claims.stepError s = some e ∧ step s = .next (s.raised e)) ∨
    (∃ i, Claims.stepError s = Claims.instrError i s ∧ step s = exec i s) := by
  rcases step_cases s with ⟨hhalted, -⟩ | ⟨-, hpast, hs⟩ | ⟨-, hpc, hw, hs⟩ | ⟨i, -, hpc, hw, hs⟩
  · cases hrun.symm.trans hhalted
  · exact .inl ⟨_, if_pos hpast, hs⟩
  · exact .inl ⟨_, stepError_of_illegalWord hpc hw, hs⟩
  · exact .inr ⟨i, stepError_of_legalWord hpc hw, hs⟩

end

end Sys2Proof.Machine

namespace Sys2Proof.Claims

open Sys2Proof.Machine

/-- Settles O11: the error is met before the execution, or it is that of the effect. -/
theorem stepErrorTable : Obligations.StepErrorTable := by
  intro s hrun herr
  rcases stepError_cases hrun with ⟨e, he, hs⟩ | ⟨i, hi, hs⟩
  · rw [he]
    exact ⟨s.raised e, hs, rfl, fun _ => rfl⟩
  · obtain ⟨t, ht, heff⟩ := exec_effect i s
    refine ⟨t, hs.trans ht, ?_⟩
    rw [hi]
    rcases heff.instrError_cases with ⟨hnone, hkeep⟩ | ⟨e, he, rfl⟩
    · rw [hnone]
      exact ⟨hkeep herr, fun hne => absurd rfl hne⟩
    · rw [he]
      exact ⟨rfl, fun _ => rfl⟩

/-- Settles O8, by the word at the pc. -/
theorem illegalWordRaisesInvalidOpcode : Obligations.IllegalWordRaisesInvalidOpcode :=
  fun _ hrun hpc => ⟨step_of_illegalWord hrun hpc, fun _ => step_of_legalWord hrun hpc⟩

end Sys2Proof.Claims
end

section
/-! The load of an image: what it writes when the image fits, and the refusal when it does not
(spec/70_reset_and_hazards.md R232, D24). -/

namespace Sys2Proof.Machine

section
variable {s : State} {bytes : List Byte}

/-- An image that fits from 0x200 up is written there (R232). -/
theorem loadImage_of_le (h : bytes.length ≤ maxImage) :
    loadImage bytes s = .next (s.setMem (s.mem.writeBytes 0x200 bytes)) :=
  if_pos h

/-- An image past the end of memory is refused (R232, D24). -/
theorem loadImage_of_gt (h : maxImage < bytes.length) : loadImage bytes s = .refused .imageTooLong :=
  if_neg (Nat.not_le.2 h)

end

end Sys2Proof.Machine

namespace Sys2Proof.Claims

open Sys2Proof.Machine

/-- Settles O54: an image that is not refused ends at or below 4096, so its block write stores every byte. -/
theorem loadImagePlacesBytes : Obligations.LoadImagePlacesBytes := by
  intro bytes s
  refine ⟨fun hfits => ?_, loadImage_of_gt⟩
  have hend : 0x200 + bytes.length ≤ 4096 := by omega
  exact ⟨_, loadImage_of_le hfits, stores_of_mem_eq hend rfl, rfl⟩

end Sys2Proof.Claims
end

section
/-! The pc after each instruction, against the table of pc updates (spec/10_state.md R24, D4, D9, D15, D18, D26). -/

namespace Sys2Proof.Machine

section
variable {s t : State} {i : Instr} {c : Bool} {p : Prop} [Decidable p]

/-! ## Skips and targets -/

theorem State.pc_skipIf_of_iff (h : c = true ↔ p) : (s.skipIf c).pc = if p then s.pc + 4 else s.pc + 2 :=
  congrArg State.pc (State.skipIf_eq h)

/-- A skip whose test means that a condition fails (R127, R129, R192). -/
theorem State.pc_skipIf_of_iff_not (h : c = true ↔ ¬ p) : (s.skipIf c).pc = if p then s.pc + 2 else s.pc + 4 :=
  (State.pc_skipIf_of_iff h).trans (ite_not ..)

theorem addrValue_eq_ofNat (nnn : Addr12) : addrValue nnn = BitVec.ofNat 16 nnn.toNat :=
  (BitVec.ofNat_toNat ..).symm

theorem indexedTarget_eq_ofNat (nnn : Addr12) (s : State) :
    indexedTarget nnn s = BitVec.ofNat 16 (nnn.toNat + (s.reg 0).toNat) := by
  rw [BitVec.ofNat_add, BitVec.ofNat_toNat, BitVec.ofNat_toNat, indexedTarget]

theorem State.keyDown_keyIndex_eq_getD (x : Nibble) (s : State) :
    s.keyDown (keyIndex x s) = (s.keys[(s.reg x).toNat % 16]?).getD false := by
  rw [State.keyDown_keyIndex, Vector.getElem?_eq_getElem, Option.getD_some]

/-- Some key is down when there is a least one (R193). -/
theorem State.not_forall_released {k : Nibble} (hk : s.leastKey = some k) : ¬ ∀ j : Nibble, s.keyDown j = false :=
  fun hup => by simp [State.leastKey_eq_none_of_released hup] at hk

/-! ## The table -/

/-- An effect that meets no error leaves the pc of the table (R24). -/
theorem Effect.pc_eq_pcAfter (h : Effect s i t) (hi : Claims.instrError i s = none) : t.pc = Claims.pcAfter i s := by
  cases h
  case retEmpty | callFull | drawOut | dumpOut | fillOut => cases (if_pos (by omega)).symm.trans hi
  case bcdOut hm hout => cases (if_pos ⟨hm, by omega⟩).symm.trans hi
  case jump nnn | call nnn _ => exact addrValue_eq_ofNat nnn
  case jumpR0 nnn => exact indexedTarget_eq_ofNat nnn s
  case ret hsp =>
    have hlt : s.sp.val - 1 < 16 := by omega
    simp [Claims.pcAfter, hlt]
  case skipIfEqImm | skipIfEqReg => exact State.pc_skipIf_of_iff beq_iff_eq
  case skipIfNeImm | skipIfNeReg => exact State.pc_skipIf_of_iff_not bne_iff_ne
  case skipIfKey x => exact State.pc_skipIf_of_iff (by rw [State.keyDown_keyIndex_eq_getD])
  case skipIfNotKey x =>
    exact State.pc_skipIf_of_iff_not (by rw [State.keyDown_keyIndex_eq_getD, Bool.not_eq_true', Bool.not_eq_true])
  case awaitKeyFound hk => exact (if_neg fun hwait => State.not_forall_released hk hwait.2).symm
  case awaitKeyWait hm hk => exact (if_pos ⟨hm, s.leastKey_eq_none hk⟩).symm
  case awaitKeyStub hm => exact (if_neg (by simp [hm])).symm
  all_goals rfl

/-- An effect that meets an error leaves the pc (R204, D9). -/
theorem Effect.pc_eq_of_instrError (h : Effect s i t) (hi : Claims.instrError i s ≠ none) : t.pc = s.pc := by
  rcases h.instrError_cases with ⟨hnone, -⟩ | ⟨e, -, rfl⟩
  · exact absurd hnone hi
  · rfl

end

end Sys2Proof.Machine

namespace Sys2Proof.Claims

open Sys2Proof.Machine

/-- Settles O13: every instruction has an effect, and its pc is that of the table unless it is an error's entry. -/
theorem pcAfterEachInstruction : Obligations.PcAfterEachInstruction := by
  intro i s
  obtain ⟨t, ht, he⟩ := exec_effect i s
  exact ⟨t, ht, he.pc_eq_pcAfter, he.pc_eq_of_instrError⟩

end Sys2Proof.Claims
end

section
/-! Steps and host operations by the state they start in: a halted machine, a fetch past the memory, a fetch of bytes
just stored; the words of the test vectors (spec/60_exceptions.md R205 to R208, spec/20_memory.md R60,
spec/95_test_vectors.md section 2.1). -/

namespace Sys2Proof.Machine

section
variable {s : State}

/-- A step in Halted changes nothing (D16). -/
theorem step_of_halted (hrun : s.run = .halted) : step s = .next s := by
  rcases step_cases s with ⟨-, hs⟩ | ⟨hrunning, -⟩ | ⟨hrunning, -⟩ | ⟨_, hrunning, -⟩
  · exact hs
  all_goals cases hrun.symm.trans hrunning

/-- A fetch from pc 4095 up is an error's entry (R74, D6). -/
theorem step_of_fetchPast (hrun : s.run = .running) (hpc : 4095 ≤ s.pc.toNat) :
    step s = Claims.errorOutcome .outOfBoundsAccess s := by
  rcases step_cases s with ⟨hhalted, -⟩ | ⟨-, -, hs⟩ | ⟨-, hin, -⟩ | ⟨_, -, hin, -⟩
  · cases hrun.symm.trans hhalted
  · exact hs
  all_goals omega

end

end Sys2Proof.Machine

namespace Sys2Proof.Claims

open Sys2Proof.Machine

/-- Settles O9, by the cases of a step. -/
theorem haltedStepChangesNothing : Obligations.HaltedStepChangesNothing :=
  fun _ => step_of_halted

/-- Settles O7, by the cases of a step. -/
theorem fetchPastMemoryFails : Obligations.FetchPastMemoryFails :=
  fun _ => step_of_fetchPast

/-- Settles O12: a halted step answers the same state; a tick writes the timers and a key write the keys. -/
theorem haltedIsTerminal : Obligations.HaltedIsTerminal := by
  intro s t e hrun h
  cases e with
  | step =>
    cases (step_of_halted hrun).symm.trans h
    rfl
  | tick =>
    cases h
    rfl
  | setKey k down =>
    cases h
    rfl

/-- A dump over the next instruction leaves the pc at the block stored, whose first word is made of `x[0]` and `x[1]`
(R60, R164, D31). -/
theorem exec_dump_over_next {x : Nibble} {s : State} (hx : 1 ≤ x.toNat) (hindex : s.index.toNat = s.pc.toNat + 2)
    (hend : s.index.toNat + x.toNat < 4096) :
    ∃ t, exec (.dump x) s = .next t ∧ t.run = s.run ∧ t.pc.toNat = s.index.toNat ∧
      wordAtPc t = wordOfBytes (s.reg 0) (s.reg 1) := by
  obtain ⟨t, ht, hframe, hstored, -⟩ := exec_dump_stores hend
  have hpc : t.pc.toNat = s.index.toNat := by
    rw [hframe]
    bv_omega
  refine ⟨t, ht, by rw [hframe], hpc, ?_⟩
  rw [wordAtPc, hpc]
  exact congrArg₂ wordOfBytes (hstored 0 (Nat.zero_le _)) (hstored 1 hx)

/-- Settles O33: the next step fetches the word that the dump stored at the pc. -/
theorem storeSeenByTheNextFetch : Obligations.StoreSeenByTheNextFetch := by
  intro x s hrun hx hindex hend
  obtain ⟨t, ht, hkeep, hpc, hword⟩ := exec_dump_over_next hx hindex hend
  have hin : t.pc.toNat ≤ 4094 := by omega
  refine ⟨t, ht, ?_⟩
  rw [← hword]
  split
  next i hlegal => exact step_of_legalWord (hkeep.trans hrun) hin hlegal
  next hillegal => exact step_of_illegalWord (hkeep.trans hrun) hin hillegal

/-- Settles O5, by running the decoder on the fourteen words. -/
theorem specWordsDecode : Obligations.SpecWordsDecode := by
  unfold Obligations.SpecWordsDecode
  decide

end Sys2Proof.Claims
end

section
/-! The timers under any number of ticks (spec/60_exceptions.md R213, D22). -/

namespace Sys2Proof.Machine

/-- A count down is the predecessor of a natural number, 0 at 0 (R213). -/
theorem toNat_countDown (v : Byte) : (countDown v).toNat = v.toNat.pred := by
  unfold countDown
  split
  next h =>
    rw [h]
    rfl
  next h =>
    rw [Nat.pred_eq_sub_one]
    bv_omega

/-- A number read off the state that each tick lowers by one is `n` lower, or 0, after `n` ticks. -/
theorem iterate_tickTimers_of_pred {f : State → Nat} (h : ∀ s, f (tickTimers s) = (f s).pred) (n : Nat)
    (s : State) : f (tickTimers^[n] s) = f s - n :=
  (Function.Semiconj.iterate_right (f := f) h n s).trans (Nat.pred_iterate ..)

/-- Ticks write the timers alone (R213). -/
theorem iterate_tickTimers_frame (n : Nat) (s : State) :
    tickTimers^[n] s = { s with dt := (tickTimers^[n] s).dt, st := (tickTimers^[n] s).st } := by
  induction n with
  | zero => rfl
  | succ n ih =>
    rw [Function.iterate_succ_apply', ih]
    rfl

end Sys2Proof.Machine

namespace Sys2Proof.Claims

open Sys2Proof.Machine

/-- Settles O41: each tick takes the predecessor of both timers. -/
theorem ticksSaturate : Obligations.TicksSaturate := fun n s =>
  ⟨⟨iterate_tickTimers_of_pred (f := fun s => s.dt.toNat) (fun s => toNat_countDown s.dt) n s,
    iterate_tickTimers_of_pred (f := fun s => s.st.toNat) (fun s => toNat_countDown s.st) n s⟩,
    iterate_tickTimers_frame n s⟩

end Sys2Proof.Claims
end

section
/-! The reset values: what the memory reads with `FONT` written, and the blank rest (spec/10_state.md R36, D2, D3). -/

namespace Sys2Proof.Machine

/-- Past the font an unlisted byte is 0 (R36, D2). -/
theorem unlisted_of_ge {a : Nat} (h : 80 ≤ a) : unlisted a = 0 :=
  List.getD_eq_default _ _ h

/-- A memory that lists nothing stays so under a block of the bytes that are read there anyway. -/
theorem Memory.writeBytes_nil_of_unlisted {base : Nat} {vs : List Byte}
    (h : ∀ k (hk : k < vs.length), vs[k] = unlisted (base + k)) : Memory.writeBytes [] base vs = [] := by
  induction vs generalizing base with
  | nil => rfl
  | cons v vs ih =>
    have hv : v = unlisted base := h 0 (Nat.succ_pos _)
    have hwrite : Memory.write [] base v = [] := by simp [Memory.write, Memory.erase, hv]
    rw [Memory.writeBytes, hwrite]
    refine ih fun k hk => ?_
    rw [Nat.add_right_comm, Nat.add_assoc]
    exact h (k + 1) (Nat.succ_lt_succ hk)

/-- The default `FONT` is what the empty memory reads, so nothing is listed for it (R35). -/
theorem Memory.writeBytes_nil_defaultFont : Memory.writeBytes [] 0 defaultFont.toList = [] :=
  Memory.writeBytes_nil_of_unlisted fun k hk => by
    rw [Nat.zero_add]
    exact (List.getD_eq_getElem _ _ hk).symm

section
variable (font : Font) (params : Params)

theorem read_resetWith (a : Nat) :
    (State.resetWith font params).mem.read a = (font.toList[a]?).getD (unlisted a) :=
  Memory.read_writeBytes [] 0 a font.toList (by simp)

theorem read_resetWith_of_lt {a : Nat} (h : a < 80) : (State.resetWith font params).mem.read a = font[a] := by
  simp [read_resetWith, h]

theorem read_resetWith_of_ge {a : Nat} (h : 80 ≤ a) : (State.resetWith font params).mem.read a = 0 := by
  simp [read_resetWith, h, unlisted_of_ge h]

end

end Sys2Proof.Machine

namespace Sys2Proof.Claims

open Sys2Proof.Machine

/-- Settles O53: the font's bytes and the zeros past them by the reads of a block write, every other value as written
in the reset state. -/
theorem resetValues : Obligations.ResetValues := by
  refine ⟨fun font params => ?_, ?_⟩
  · refine ⟨fun a => read_resetWith_of_lt font params, fun a h _ => read_resetWith_of_ge font params h,
      fun r => ?_, Display.pixel_blank, fun k => ?_, fun k hk => ?_, ⟨rfl, rfl, rfl, rfl, rfl, rfl, rfl, rfl⟩⟩
    · exact Vector.getElem_replicate r.isLt
    · exact Vector.getElem_replicate k.isLt
    · exact Vector.getElem_replicate hk
  · rw [State.resetWith, Memory.writeBytes_nil_defaultFont]
    rfl

end Sys2Proof.Claims
end
